-- ==== Sys2Proof/Word.lean ====
section
/-!
DEFINITION. The one word type of the block. Every program byte, opcode and operand field is
an unsigned 8-bit value (00_scope.md R6 `BYTE_W`, R8; 30_encoding.md R65).
-/

namespace Sys2Proof

/-- A program byte (R6: `BYTE_W` is fixed at 8). -/
abbrev Byte := BitVec 8

/-- An operand of kind REG: a register index 0 to 255, carried as data and never range-checked (R28). -/
abbrev RegIndex := Byte

/-- An operand of kind IMM: an unsigned immediate 0 to 255 (R65). -/
abbrev Imm := Byte

end Sys2Proof
end

