-- ==== Sys2Proof/Config.lean ====
section
/-!
DEFINITION. The parameters of 00_scope.md R6. `PC_W` and `N_MAX` are OPEN there (92_eei_decisions.md
D3): they are constants with no body, so no proof can see a value (log 2). The fixed parameters have
the value R6 gives them.
-/

namespace Sys2Proof

/-- What a truncated instruction does (R6 `TRUNC_POLICY`, R93, R104). -/
inductive TruncPolicy where
  | fault    -- raise TruncatedInstruction
  | padZero  -- take missing operand bytes as 0; the one named alternative
deriving DecidableEq, Repr

/-- The two open widths with the bound R6 puts on them, `N_MAX <= 2^PC_W - 4`. The defaults only show
that parameters meeting the bound exist; the hardware's own are `Config.widths`. -/
structure Widths where
  /-- `PC_W`, the width of the program counter in bits. -/
  pcW : Nat := 2
  /-- `N_MAX`, the largest buffer the block accepts. -/
  nMax : Nat := 0
  /-- The bound of R6 and R21. -/
  fits : nMax + 4 ≤ 2 ^ pcW := by decide
deriving Inhabited, Repr

/-- The parameters of this implementation: open (R6, D3), so a constant with no body. -/
opaque Config.widths : Widths

/-- `PC_W` (R6). -/
def Config.pcW : Nat := Config.widths.pcW

/-- `N_MAX` (R6). -/
def Config.nMax : Nat := Config.widths.nMax

/-- R6: `N_MAX <= 2^PC_W - 4`. -/
theorem Config.nMax_fits : Config.nMax + 4 ≤ 2 ^ Config.pcW := Config.widths.fits

/-- R6: `TRUNC_POLICY` is fixed at `Fault` for this hardware. -/
def Config.truncPolicy : TruncPolicy := .fault

/-- R6: `ADDR_DIGITS_MIN`, the fewest hex digits of a rendered address. -/
def Config.addrDigitsMin : Nat := 2

/-- R6: `NOPS_MAX`, the most operand bytes of one instruction. -/
def Config.opsMax : Nat := 3

end Sys2Proof
end

