-- ==== Sys2Proof/Syntax.lean ====
section
/-!
DEFINITION. The instructions, one constructor per row of opcode_table.json, with the operand roles of
30_encoding.md R61 in slot order; and the two closed sets of names the decode ROM uses.
-/

namespace Sys2Proof

/-- The kind of an operand slot (30_encoding.md R64). Code 0b11 is never stored, so it has no name. -/
inductive Kind where
  | none  -- the slot is not part of the instruction
  | reg   -- a register index
  | imm   -- an immediate
deriving DecidableEq, Repr

/-- The class an opcode selects: the eleven named opcodes and UNKNOWN (00_scope.md R11, 30_encoding.md R66).
Class codes 0xC to 0xF are never stored, so they have no name. -/
inductive Cls where
  | unknown
  | loadImm
  | loadAddr
  | storeAddr
  | add
  | mod
  | xor
  | inc
  | cmp
  | jmp
  | jnz
  | loadInd
deriving DecidableEq, Repr

/-- An instruction with its operands, as the opcode table lists them (R61). -/
inductive Instr where
  /-- 0x01, R110. -/
  | loadImm (r : RegIndex) (imm : Imm)
  /-- 0x02, R111. -/
  | loadAddr (r : RegIndex) (imm : Imm) (base : RegIndex)
  /-- 0x03, R112: the one opcode whose first operand is an immediate followed by registers. -/
  | storeAddr (off : Imm) (base : RegIndex) (src : RegIndex)
  /-- 0x04, R120: the destination role is the last slot. -/
  | add (r1 : RegIndex) (r2 : RegIndex) (rd : RegIndex)
  /-- 0x05, R121. -/
  | mod (r : RegIndex) (imm : Imm) (rd : RegIndex)
  /-- 0x06, R122. -/
  | xor (r1 : RegIndex) (r2 : RegIndex) (rd : RegIndex)
  /-- 0x07, R123. -/
  | inc (r : RegIndex)
  /-- 0x08, R124. -/
  | cmp (r : RegIndex) (imm : Imm)
  /-- 0x09, R130. -/
  | jmp (imm : Imm)
  /-- 0x0A, R131. -/
  | jnz (imm : Imm)
  /-- 0x0B, R113. -/
  | loadInd (rd : RegIndex) (rs : RegIndex)
  /-- Every other byte, R140: the byte itself is the payload. -/
  | unknown (op : Byte)
deriving DecidableEq, Repr

end Sys2Proof
end

