-- ==== Sys2Proof/WellFormed.lean ====
section
/-!
DEFINITION. Which terms of `Instr` stand for bytes of a program. Operands are whole bytes of any value
(30_encoding.md R65), so the one check is UNKNOWN's payload: it is no defined opcode (R67, R71, R140).
-/

namespace Sys2Proof

/-- A byte that selects one of the eleven named opcodes, 0x01 to 0x0B (R67). -/
def definedOpcode (op : Byte) : Bool := 0x01 ≤ op.toNat && op.toNat ≤ 0x0B

/-- The payload of UNKNOWN is a byte outside 0x01..0x0B (R140); every other instruction is well formed. -/
def Instr.wf : Instr → Bool
  | .loadImm _ _ => true
  | .loadAddr _ _ _ => true
  | .storeAddr _ _ _ => true
  | .add _ _ _ => true
  | .mod _ _ _ => true
  | .xor _ _ _ => true
  | .inc _ => true
  | .cmp _ _ => true
  | .jmp _ => true
  | .jnz _ => true
  | .loadInd _ _ => true
  | .unknown op => !definedOpcode op

end Sys2Proof
end

