-- ==== Sys2Proof/Decode.lean ====
section
/-!
DEFINITION. The decode ROM with its packing (30_encoding.md R64, R66), the length calculator (R62), the
decoder, total on any bytes and rejecting by name, and the encoder, written from the formats of R60 and R61.
-/

namespace Sys2Proof

/-! ### The decode ROM -/

/-- One entry of the decode ROM (10_state.md R26). -/
structure RomEntry where
  cls : Cls
  len : BitVec 3
  k1 : Kind
  k2 : Kind
  k3 : Kind
deriving DecidableEq, Repr

/-- The 2-bit code of an operand kind (R64). -/
def Kind.code : Kind → BitVec 2
  | .none => 0b00
  | .reg => 0b01
  | .imm => 0b10

/-- The 4-bit class code: the opcode value of a defined opcode, 0x0 for UNKNOWN (R66). -/
def Cls.code : Cls → BitVec 4
  | .unknown => 0x0
  | .loadImm => 0x1
  | .loadAddr => 0x2
  | .storeAddr => 0x3
  | .add => 0x4
  | .mod => 0x5
  | .xor => 0x6
  | .inc => 0x7
  | .cmp => 0x8
  | .jmp => 0x9
  | .jnz => 0xA
  | .loadInd => 0xB

/-- The contents of the decode ROM (R66). It is total: every byte outside 0x01..0x0B has UNKNOWN's entry (R67). -/
def rom (op : Byte) : RomEntry :=
  match op with
  | 0x01#8 => ⟨.loadImm, 3, .reg, .imm, .none⟩
  | 0x02#8 => ⟨.loadAddr, 4, .reg, .imm, .reg⟩
  | 0x03#8 => ⟨.storeAddr, 4, .imm, .reg, .reg⟩
  | 0x04#8 => ⟨.add, 4, .reg, .reg, .reg⟩
  | 0x05#8 => ⟨.mod, 4, .reg, .imm, .reg⟩
  | 0x06#8 => ⟨.xor, 4, .reg, .reg, .reg⟩
  | 0x07#8 => ⟨.inc, 2, .reg, .none, .none⟩
  | 0x08#8 => ⟨.cmp, 3, .reg, .imm, .none⟩
  | 0x09#8 => ⟨.jmp, 2, .imm, .none, .none⟩
  | 0x0A#8 => ⟨.jnz, 2, .imm, .none, .none⟩
  | 0x0B#8 => ⟨.loadInd, 3, .reg, .reg, .none⟩
  | _ => ⟨.unknown, 1, .none, .none, .none⟩

/-- The 13-bit word of an entry: `cls` in bits 12:9, `len` in 8:6, `k1` in 5:4, `k2` in 3:2, `k3` in 1:0 (R66). -/
def RomEntry.word (e : RomEntry) : BitVec 13 :=
  e.cls.code ++ e.len ++ e.k1.code ++ e.k2.code ++ e.k3.code

/-- The length calculator, a function of the opcode byte alone (R62). -/
def lengthOf (op : Byte) : BitVec 3 :=
  if op = 0x02 ∨ op = 0x03 ∨ op = 0x04 ∨ op = 0x05 ∨ op = 0x06 then 4
  else if op = 0x01 ∨ op = 0x08 ∨ op = 0x0B then 3
  else if op = 0x07 ∨ op = 0x09 ∨ op = 0x0A then 2
  else 1

/-! ### The decoder -/

/-- The instruction of an opcode byte and the bytes in its operand slots 1 to 3, bound to the roles of R61.
A slot the instruction does not have is not looked at. -/
def decodeOp (op f1 f2 f3 : Byte) : Instr :=
  match (rom op).cls with
  | .loadImm => .loadImm f1 f2
  | .loadAddr => .loadAddr f1 f2 f3
  | .storeAddr => .storeAddr f1 f2 f3
  | .add => .add f1 f2 f3
  | .mod => .mod f1 f2 f3
  | .xor => .xor f1 f2 f3
  | .inc => .inc f1
  | .cmp => .cmp f1 f2
  | .jmp => .jmp f1
  | .jnz => .jnz f1
  | .loadInd => .loadInd f1 f2
  | .unknown => .unknown op

/-- Why a list of bytes does not begin with an instruction. Neither is an illegal encoding: there is none (R68). -/
inductive DecodeError where
  /-- There is no byte at all. -/
  | noOpcode
  /-- The opcode byte `op` needs `needs` bytes and only `present` are there (R93). -/
  | truncated (op : Byte) (needs present : Nat)
deriving DecidableEq, Repr

/-- Decode the instruction at the head of a list of bytes; the answer holds the bytes after it. The length is
read off the opcode byte before any operand byte (R63). -/
def decode : List Byte → Except DecodeError (Instr × List Byte)
  | [] => .error .noOpcode
  | op :: bs =>
    if bs.length + 1 < (lengthOf op).toNat then
      .error (.truncated op (lengthOf op).toNat (bs.length + 1))
    else
      .ok (decodeOp op (bs.getD 0 0) (bs.getD 1 0) (bs.getD 2 0), bs.drop ((lengthOf op).toNat - 1))

/-! ### The encoder -/

/-- The bytes of an instruction, opcode first, then the operands in slot order (R60, R61). -/
def encode : Instr → List Byte
  | .loadImm r imm => [0x01, r, imm]
  | .loadAddr r imm base => [0x02, r, imm, base]
  | .storeAddr off base src => [0x03, off, base, src]
  | .add r1 r2 rd => [0x04, r1, r2, rd]
  | .mod r imm rd => [0x05, r, imm, rd]
  | .xor r1 r2 rd => [0x06, r1, r2, rd]
  | .inc r => [0x07, r]
  | .cmp r imm => [0x08, r, imm]
  | .jmp imm => [0x09, imm]
  | .jnz imm => [0x0A, imm]
  | .loadInd rd rs => [0x0B, rd, rs]
  | .unknown op => [op]

/-! ### The opcode table's numbering of bits -/

/-- The opcode byte and the operand bytes of the longest instruction, from a word whose bits count from the first byte's bit 0:
byte `k` is bits `8k+7 : 8k`. Bits at `nbits` and above are 0. -/
def wordBytes (nbits w : Nat) : List Byte :=
  (List.range (1 + Config.opsMax)).map fun k => BitVec.ofNat 8 (w % 2 ^ nbits / 2 ^ (8 * k))

/-- What the decoder reads from an instruction whose bits are `w`. -/
def decodeTableWord (nbits w : Nat) : Option Instr :=
  match decode (wordBytes nbits w) with
  | .ok (i, _) => some i
  | .error _ => none

end Sys2Proof
end

