-- ==== Sys2Proof/Machine/State.lean ====
section
/-!
DEFINITION. The state of the block as plain data (10_state.md), the reasons a step can stop, and the state
after reset (R33). The decode ROM is a constant (`Sys2Proof.rom`), not a field: nothing changes it (R26, log 10).
-/

namespace Sys2Proof.Machine

/-- The program buffer as the host holds it behind `prog_rd` (20_memory.md R40): offset and byte pairs, offsets strictly
rising, one entry per placed byte. What an unlisted offset reads as is `Memory.unlisted` (log 5). -/
abbrev Memory := List Host.Cell

/-- The pass state `st` (R23). -/
inductive PassState where
  | idle   -- no pass since reset
  | run    -- a pass is in progress; the next step decodes at `pc`
  | done   -- the pass ended normally
  | fault  -- the pass ended with TruncatedInstruction
deriving DecidableEq, Repr

/-- The fault record (R24). -/
structure FaultRecord where
  /-- `f_pc`: address of the truncated instruction. -/
  fPc : Nat
  /-- `f_op`: its opcode byte. -/
  fOp : Byte
  /-- `f_len`: the length it needs. -/
  fLen : BitVec 3
  /-- `f_avail`: the bytes present from `f_pc` to the end. -/
  fAvail : Nat
deriving DecidableEq, Repr

/-- One output record (R31). -/
structure DecodedInstr where
  addr : Nat
  op : Byte
  cls : Cls
  len : BitVec 3
  f1 : Byte
  f2 : Byte
  f3 : Byte
  k1 : Kind
  k2 : Kind
  k3 : Kind
deriving DecidableEq, Repr

/-- What the host does between two steps (70_reset_and_hazards.md R170, R171, R174). -/
inductive HostTurn where
  /-- Nothing: the block takes its step. -/
  | block
  /-- Assert `reset` (R170). -/
  | reset
  /-- Assert `start` with `n_in` and `start_pc_in` (R171). -/
  | start (nIn startPcIn : Nat)
  /-- Place a program's bytes at offsets 0, 1, ... of the buffer (R174, item 1). -/
  | place (bytes : List Byte)
deriving DecidableEq, Repr

/-- Why the machine stops with a fault. -/
inductive Fault where
  /-- Raised by `MemRead(a, 1)` with `a >= N`, where R9 and R40 define no value. Safe: no value is given to such a byte, and no
  step raises it, since the stop and truncation tests keep every read in range. -/
  | readPastEnd (a : Nat)
  /-- Raised by `MemRead(a, 1)` with `a < N` when the host has placed no byte there, against its duty of R174. Safe: the
  machine stops and gives the byte no value (log 5). -/
  | programByteAbsent (a : Nat)
deriving DecidableEq, Repr

/-- Why the machine gives no meaning. -/
inductive Refusal where
  /-- Answered only by an arm of `exec` whose instruction has no meaning yet; no arm is left so. Safe. -/
  | notModelled (mnemonic : String)
  /-- Answered by a start with `start_pc_in >= 2^PC_W` or `n_in > N_MAX`, which R173 has a model refuse. Safe. -/
  | startOutOfBounds (nIn startPcIn : Nat)
  /-- Answered by a placement of program bytes while `st = RUN`: R52 and R176 forbid it and the model has no move for it. The
  refusal itself is safe; that a real host might do it is blind spot B1 (log 6). -/
  | programWriteDuringPass
deriving DecidableEq, Repr

/-- Everything the machine holds: the block's own state (R20, R23, R24, R25, R31) and, behind its ports, the program buffer and
what the host does before each coming step (log 3). -/
structure State where
  /-- The pass state (R23). -/
  st : PassState
  /-- The program counter (R20), a natural number (R21, log 1). -/
  pc : Nat
  /-- `n_reg`, the latched buffer length N (R25). -/
  n : Nat
  /-- The fault record (R24). -/
  fault : FaultRecord
  /-- The output stream of the pass, first record first (R31). -/
  out : List DecodedInstr
  /-- The program buffer (R40). -/
  prog : Memory
  /-- The host's turns, next one first; none left means that the host does nothing more. -/
  turns : List HostTurn
deriving DecidableEq, Repr

/-- The fault record after reset and after a start (R33, R171). -/
def FaultRecord.zero : FaultRecord := ⟨0, 0, 0, 0⟩

/-- The machine right after reset (R33): IDLE, every register 0, the output empty; nothing placed in the buffer and no host
turn waiting (DESIGN CHOICE, log 11). -/
def State.reset : State :=
  { st := .idle, pc := 0, n := 0, fault := FaultRecord.zero, out := [], prog := [], turns := [] }

/-- What a meaning and a step answer. -/
abbrev Result := Host.Outcome State Fault Refusal

end Sys2Proof.Machine
end

