-- ==== Sys2Proof/Machine/Ops.lean ====
section
/-!
DEFINITION. The named operations: the program buffer, MemRead, emitting a record, and taking the block's one exception with the
two ways out of it (10_state.md, 20_memory.md, 40_decode_unit.md, 60_exceptions.md, 70_reset_and_hazards.md).
-/

namespace Sys2Proof.Machine

/-! ### The program buffer -/

/-- What an unlisted offset reads as: no value (DESIGN CHOICE, safe, log 5). -/
def Memory.unlisted : Option Byte := none

/-- The canonical form: offsets strictly rising. No entry can equal `Memory.unlisted`, which is no byte. -/
abbrev Memory.wf (m : Memory) : Prop := m.Pairwise fun x y => x.1 < y.1

/-- The byte at an offset. -/
def Memory.lookup : Memory → Nat → Option Byte
  | [], _ => Memory.unlisted
  | (k, b) :: m, a => if k = a then some b else Memory.lookup m a

/-- Put a byte at an offset, keeping the canonical form. Only the host does so; the block writes no memory (R43). -/
def Memory.write : Memory → Nat → Byte → Memory
  | [], a, b => [(a, b)]
  | (k, v) :: m, a, b =>
    if a < k then (a, b) :: (k, v) :: m
    else if a = k then (a, b) :: m
    else (k, v) :: Memory.write m a b

/-- Put bytes at consecutive ascending offsets (R44). -/
def Memory.writeBytes (m : Memory) (a : Nat) : List Byte → Memory
  | [] => m
  | b :: bs => Memory.writeBytes (Memory.write m a b) (a + 1) bs

/-- A buffer holding the given bytes at offsets `a`, `a+1`, ... and nothing else. -/
def Memory.ofBytes (a : Nat) : List Byte → Memory
  | [] => []
  | b :: bs => (a, b) :: Memory.ofBytes (a + 1) bs

/-- `MemRead(a, 1)` (R9, R40): the program byte at offset `a`, defined only for `a < N`. It changes nothing (R46). -/
def State.memRead (s : State) (a : Nat) : Except Fault Byte :=
  if a < s.n then
    match Memory.lookup s.prog a with
    | some b => .ok b
    | none => .error (.programByteAbsent a)
  else .error (.readPastEnd a)

/-! ### Emitting a record -/

/-- `emit(d)`, then `pc <- pc + len` (R95); `st` and everything else stay. -/
def State.retire (s : State) (d : DecodedInstr) : State :=
  { s with out := s.out ++ [d], pc := s.pc + d.len.toNat }

/-- The stop test holds: `st <- DONE`, no record, `pc` unchanged (R91). -/
def State.stopPass (s : State) : State := { s with st := .done }

/-! ### The exception -/

/-- The truncation test (R93): fewer than `len` bytes are left from `pc` to the end. -/
def State.isTruncated (s : State) (len : BitVec 3) : Bool := s.n < s.pc + len.toNat

/-- Fault entry (R150, R155): `st <- FAULT` and the fault record; `pc`, the records emitted before and the program stay. There is
no vector, saved state or mode. -/
def State.takeTruncated (s : State) (op : Byte) (len : BitVec 3) : State :=
  { s with st := .fault, fault := { fPc := s.pc, fOp := op, fLen := len, fAvail := s.n - s.pc } }

/-- Out of FAULT, the first way (R156): reset (R170) sets every piece of the block's state to R33's value. The host's buffer and
its coming turns are the host's own and stay (log 12). -/
def State.hostReset (s : State) : State :=
  { State.reset with prog := s.prog, turns := s.turns }

/-- Out of FAULT, the second way (R156): a start within its bounds (R171) latches N, loads `pc`, clears the fault record and the
output, and sets RUN. -/
def State.startPass (s : State) (nIn startPcIn : Nat) : State :=
  { s with st := .run, pc := startPcIn, n := nIn, fault := FaultRecord.zero, out := [] }

/-- The last part of every instruction's meaning, with the record its rule gives: raise TruncatedInstruction if the instruction
runs past the end (R93), else emit and advance (R95). In a step the first branch has been taken before the operands are read;
it stands here so that each meaning holds the exception its own rule names (log 7). -/
def completeDecode (d : DecodedInstr) (s : State) : Result :=
  if s.isTruncated d.len then .next (s.takeTruncated d.op d.len) else .next (s.retire d)

end Sys2Proof.Machine
end

