-- ==== Sys2Proof/Machine/Operands.lean ====
section
/-!
DEFINITION. The eight instruction formats of 30_encoding.md R60, each as the record (10_state.md R31) of an instruction at an
address: the operand bytes in slot order with their kinds, unused slots 0 with kind NONE (40_decode_unit.md R94). Every operand
is its whole byte (R65).
-/

namespace Sys2Proof.Machine

/-- Format `O`: the opcode alone. -/
def recordO (cls : Cls) (op : Byte) (addr : Nat) : DecodedInstr :=
  { addr, op, cls, len := 1, f1 := 0, f2 := 0, f3 := 0, k1 := .none, k2 := .none, k3 := .none }

/-- Format `R`: one register. -/
def recordR (cls : Cls) (op : Byte) (r : RegIndex) (addr : Nat) : DecodedInstr :=
  { addr, op, cls, len := 2, f1 := r, f2 := 0, f3 := 0, k1 := .reg, k2 := .none, k3 := .none }

/-- Format `I`: one immediate. -/
def recordI (cls : Cls) (op : Byte) (imm : Imm) (addr : Nat) : DecodedInstr :=
  { addr, op, cls, len := 2, f1 := imm, f2 := 0, f3 := 0, k1 := .imm, k2 := .none, k3 := .none }

/-- Format `RI`: a register, an immediate. -/
def recordRI (cls : Cls) (op : Byte) (r : RegIndex) (imm : Imm) (addr : Nat) : DecodedInstr :=
  { addr, op, cls, len := 3, f1 := r, f2 := imm, f3 := 0, k1 := .reg, k2 := .imm, k3 := .none }

/-- Format `RR`: two registers. -/
def recordRR (cls : Cls) (op : Byte) (ra rb : RegIndex) (addr : Nat) : DecodedInstr :=
  { addr, op, cls, len := 3, f1 := ra, f2 := rb, f3 := 0, k1 := .reg, k2 := .reg, k3 := .none }

/-- Format `RIR`: a register, an immediate, a register. -/
def recordRIR (cls : Cls) (op : Byte) (ra : RegIndex) (imm : Imm) (rb : RegIndex) (addr : Nat) : DecodedInstr :=
  { addr, op, cls, len := 4, f1 := ra, f2 := imm, f3 := rb, k1 := .reg, k2 := .imm, k3 := .reg }

/-- Format `IRR`: an immediate, two registers. -/
def recordIRR (cls : Cls) (op : Byte) (imm : Imm) (ra rb : RegIndex) (addr : Nat) : DecodedInstr :=
  { addr, op, cls, len := 4, f1 := imm, f2 := ra, f3 := rb, k1 := .imm, k2 := .reg, k3 := .reg }

/-- Format `RRR`: three registers. -/
def recordRRR (cls : Cls) (op : Byte) (ra rb rc : RegIndex) (addr : Nat) : DecodedInstr :=
  { addr, op, cls, len := 4, f1 := ra, f2 := rb, f3 := rc, k1 := .reg, k2 := .reg, k3 := .reg }

end Sys2Proof.Machine
end

