-- ==== Sys2Proof/Machine/Alu.lean ====
section
/-!
DEFINITION. The meanings of the arithmetic, logic and compare opcodes (42_alu.md). The block performs no arithmetic for them and
sets no flag.
-/

namespace Sys2Proof.Machine

/-- ADD (R120). -/
def execAdd (r1 r2 rd : RegIndex) (s : State) : Result :=
  completeDecode (recordRRR .add 0x04 r1 r2 rd s.pc) s

/-- MOD (R121). A zero immediate raises nothing. -/
def execMod (r : RegIndex) (imm : Imm) (rd : RegIndex) (s : State) : Result :=
  completeDecode (recordRIR .mod 0x05 r imm rd s.pc) s

/-- XOR (R122). -/
def execXor (r1 r2 rd : RegIndex) (s : State) : Result :=
  completeDecode (recordRRR .xor 0x06 r1 r2 rd s.pc) s

/-- INC (R123). -/
def execInc (r : RegIndex) (s : State) : Result :=
  completeDecode (recordR .inc 0x07 r s.pc) s

/-- CMP (R124). -/
def execCmp (r : RegIndex) (imm : Imm) (s : State) : Result :=
  completeDecode (recordRI .cmp 0x08 r imm s.pc) s

end Sys2Proof.Machine
end

