-- ==== Sys2Proof/Machine/Jump.lean ====
section
/-!
DEFINITION. The meanings of the jump opcodes (43_jump.md). The block never takes a jump: `pc` advances by 2 whatever the operand
(R103, R132).
-/

namespace Sys2Proof.Machine

/-- JMP (R130). -/
def execJmp (imm : Imm) (s : State) : Result :=
  completeDecode (recordI .jmp 0x09 imm s.pc) s

/-- JNZ (R131). No condition is tested. -/
def execJnz (imm : Imm) (s : State) : Result :=
  completeDecode (recordI .jnz 0x0A imm s.pc) s

end Sys2Proof.Machine
end

