-- ==== Sys2Proof/Machine/LoadStore.lean ====
section
/-!
DEFINITION. The meanings of the load and store opcodes (41_load_store.md). The block decodes them and performs no memory access
for them (20_memory.md R41).
-/

namespace Sys2Proof.Machine

/-- LOAD_IMM (R110). -/
def execLoadImm (r : RegIndex) (imm : Imm) (s : State) : Result :=
  completeDecode (recordRI .loadImm 0x01 r imm s.pc) s

/-- LOAD_ADDR (R111). -/
def execLoadAddr (r : RegIndex) (imm : Imm) (base : RegIndex) (s : State) : Result :=
  completeDecode (recordRIR .loadAddr 0x02 r imm base s.pc) s

/-- STORE_ADDR (R112). -/
def execStoreAddr (off : Imm) (base src : RegIndex) (s : State) : Result :=
  completeDecode (recordIRR .storeAddr 0x03 off base src s.pc) s

/-- LOAD_IND (R113). -/
def execLoadInd (rd rs : RegIndex) (s : State) : Result :=
  completeDecode (recordRR .loadInd 0x0B rd rs s.pc) s

end Sys2Proof.Machine
end

