-- ==== Sys2Proof/Machine/Unknown.lean ====
section
/-!
DEFINITION. The meaning of the UNKNOWN case (44_unknown.md): a normal decode, not an error, and no end of the pass (R141).
-/

namespace Sys2Proof.Machine

/-- UNKNOWN (R140). -/
def execUnknown (op : Byte) (s : State) : Result :=
  completeDecode (recordO .unknown op s.pc) s

end Sys2Proof.Machine
end

