-- ==== Sys2Proof/Machine/Dispatch.lean ====
section
/-!
DEFINITION. The meaning of each instruction, by name.
-/

namespace Sys2Proof.Machine

def exec (i : Instr) (s : State) : Host.Outcome State Fault Refusal :=
  match i with
  | .loadImm r imm => Sys2Proof.Machine.execLoadImm r imm s
  | .loadAddr r imm base => Sys2Proof.Machine.execLoadAddr r imm base s
  | .storeAddr off base src => Sys2Proof.Machine.execStoreAddr off base src s
  | .add r1 r2 rd => Sys2Proof.Machine.execAdd r1 r2 rd s
  | .mod r imm rd => Sys2Proof.Machine.execMod r imm rd s
  | .xor r1 r2 rd => Sys2Proof.Machine.execXor r1 r2 rd s
  | .inc r => Sys2Proof.Machine.execInc r s
  | .cmp r imm => Sys2Proof.Machine.execCmp r imm s
  | .jmp imm => Sys2Proof.Machine.execJmp imm s
  | .jnz imm => Sys2Proof.Machine.execJnz imm s
  | .loadInd rd rs => Sys2Proof.Machine.execLoadInd rd rs s
  | .unknown op => Sys2Proof.Machine.execUnknown op s

end Sys2Proof.Machine
end

