-- ==== Sys2Proof/Machine/Fetch.lean ====
section
/-!
DEFINITION. The part of a step before the instruction's own meaning: stop test, opcode fetch, truncation test and operand fetch
(40_decode_unit.md R91 to R94), in the order of 60_exceptions.md R154.
-/

namespace Sys2Proof.Machine

/-- What stands at the program counter. -/
inductive Fetched where
  /-- `pc >= N`. -/
  | stop
  /-- The instruction of this opcode byte runs past the end. -/
  | truncated (op : Byte)
  /-- A whole instruction. -/
  | instr (i : Instr)
deriving DecidableEq, Repr

/-- The byte in operand slot `k` of an instruction of the given length at `pc`; 0 if it has no such slot, and then nothing is
read (R94). -/
def State.fetchOperand (s : State) (len : BitVec 3) (k : Nat) : Except Fault Byte :=
  if k < len.toNat then s.memRead (s.pc + k) else .ok 0

/-- Fetch at `pc` (R91 to R94). No byte is read before the stop test, and no operand byte before the truncation test. -/
def State.fetch (s : State) : Except Fault Fetched :=
  if s.n ≤ s.pc then .ok .stop
  else do
    let op ← s.memRead s.pc
    if s.isTruncated (rom op).len then
      return .truncated op
    let f1 ← s.fetchOperand (rom op).len 1
    let f2 ← s.fetchOperand (rom op).len 2
    let f3 ← s.fetchOperand (rom op).len 3
    return .instr (decodeOp op f1 f2 f3)

end Sys2Proof.Machine
end

