-- ==== Sys2Proof/Machine/HostPort.lean ====
section
/-!
DEFINITION. What the host does to the block between two steps (70_reset_and_hazards.md R170 to R174, R176).
-/

namespace Sys2Proof.Machine

/-- A start (R171). Out of bounds it is refused (R173). It acts the same in every pass state; during RUN it abandons the pass
(R172). -/
def hostStart (nIn startPcIn : Nat) (s : State) : Result :=
  if nIn ≤ Config.nMax ∧ startPcIn < 2 ^ Config.pcW then .next (s.startPass nIn startPcIn)
  else .refused (.startOutOfBounds nIn startPcIn)

/-- Placing a program (R174): the buffer then holds exactly these bytes at offsets 0, 1, ...; during RUN it is refused (R52, R176,
log 6). -/
def hostPlace (bytes : List Byte) (s : State) : Result :=
  match s.st with
  | .run => .refused .programWriteDuringPass
  | .idle | .done | .fault => .next { s with prog := Memory.ofBytes 0 bytes }

end Sys2Proof.Machine
end

