-- ==== Sys2Proof/Machine/Step.lean ====
section
/-!
DEFINITION. One step of the machine: the host's turn if one is waiting (70_reset_and_hazards.md R172), else the block's own step
(40_decode_unit.md R90, R96).
-/

namespace Sys2Proof.Machine

/-- The block's step. During RUN it fetches and decodes at `pc`; otherwise it takes no step and holds its state (R90, R163,
log 4). -/
def blockStep (s : State) : Host.Outcome State Fault Refusal :=
  match s.st with
  | .run =>
    match s.fetch with
    | .error f => .fault f
    | .ok .stop => .next s.stopPass
    | .ok (.truncated op) => .next (s.takeTruncated op (rom op).len)
    | .ok (.instr i) => exec i s
  | .idle => .next s
  | .done => .next s
  | .fault => .next s

/-- One step: a host turn acts between the block's steps, and is a step of its own (R171, R172, log 3). -/
def step (s : State) : Host.Outcome State Fault Refusal :=
  match s.turns with
  | [] => blockStep s
  | .block :: ts => blockStep { s with turns := ts }
  | .reset :: ts => .next ({ s with turns := ts }).hostReset
  | .start nIn startPcIn :: ts => hostStart nIn startPcIn { s with turns := ts }
  | .place bytes :: ts => hostPlace bytes { s with turns := ts }

/-- The state with an instruction's bytes at `pc`, in a pass whose buffer holds them, and the block's turn next: it stands for the
host's placing and starting of a program (log 9). -/
def State.withFetchWord (s : State) (nbits w : Nat) : State :=
  { s with
    st := .run
    n := max s.n (s.pc + 1 + Config.opsMax)
    prog := Memory.writeBytes s.prog s.pc (wordBytes nbits w)
    turns := match s.turns with
      | [] => []
      | t :: ts => .block :: t :: ts }

end Sys2Proof.Machine
end

