-- ==== Sys2Proof/Machine/DecodeUnit.lean ====
section
/-!
DEFINITION. The decode step as 40_decode_unit.md R96 writes it: one function of the buffer, N and `pc` through the decode ROM, with
no instruction type in between, for either truncation policy (R93, R104). `Sys2Proof.Machine.step` is the machine; this is the
spec's own form of a step during RUN, and `padZeroStep` is the alternative of R104, which this hardware does not take.
-/

namespace Sys2Proof.Machine

/-- The three outcomes of R96. -/
inductive UnitResult where
  | done
  | fault (f : FaultRecord)
  | emit (d : DecodedInstr) (nextPc : Nat)
deriving DecidableEq, Repr

/-- The operand byte of slot `k` (R94). Under PadZero a slot at or beyond N is not read and 0 stands for it (R54, R104). -/
def unitOperand (p : TruncPolicy) (s : State) (len : BitVec 3) (k : Nat) : Except Fault Byte :=
  if k < len.toNat then
    match p with
    | .fault => s.memRead (s.pc + k)
    | .padZero => if s.n ≤ s.pc + k then .ok 0 else s.memRead (s.pc + k)
  else .ok 0

/-- The record of R94: class, length and kinds from the ROM entry, the operand bytes as read. -/
def romRecord (addr : Nat) (op f1 f2 f3 : Byte) : DecodedInstr :=
  { addr, op, cls := (rom op).cls, len := (rom op).len, f1, f2, f3, k1 := (rom op).k1, k2 := (rom op).k2, k3 := (rom op).k3 }

/-- `step(prog, N, pc)` of R96. -/
def decodeUnit (p : TruncPolicy) (s : State) : Except Fault UnitResult :=
  if s.n ≤ s.pc then .ok .done
  else do
    let op ← s.memRead s.pc
    if p = .fault ∧ s.isTruncated (rom op).len then
      return .fault { fPc := s.pc, fOp := op, fLen := (rom op).len, fAvail := s.n - s.pc }
    let f1 ← unitOperand p s (rom op).len 1
    let f2 ← unitOperand p s (rom op).len 2
    let f3 ← unitOperand p s (rom op).len 3
    return .emit (romRecord s.pc op f1 f2 f3) (s.pc + (rom op).len.toNat)

/-- `apply` of R96. -/
def State.applyUnit (s : State) : UnitResult → State
  | .done => { s with st := .done }
  | .fault f => { s with st := .fault, fault := f }
  | .emit d npc => { s with out := s.out ++ [d], pc := npc }

/-- A step during RUN under a policy: `decodeUnit`, then `apply` (R96). -/
def unitStep (p : TruncPolicy) (s : State) : Result :=
  match decodeUnit p s with
  | .ok r => .next (s.applyUnit r)
  | .error f => .fault f

/-- A step during RUN of the alternative of R104. Not this hardware's. -/
def padZeroStep (s : State) : Result := unitStep .padZero s

end Sys2Proof.Machine
end

