-- ==== Sys2Proof/Machine/Flags.lean ====
section
/-!
DEFINITION. What the block shows of its condition. It has no status flags or condition codes and no instruction sets or tests one
(10_state.md R29); its only status is the pass state's code (R23) and the status port (R30, R32).
-/

namespace Sys2Proof.Machine

/-- The 2-bit code of `st` (R23). -/
def PassState.code : PassState → BitVec 2
  | .idle => 0b00
  | .run => 0b01
  | .done => 0b10
  | .fault => 0b11

/-- The status port: the six items of R32's table, and `n_reg`, which R30 has the host read through the same port (DEDUCED,
log 18). -/
structure StatusPort where
  st : BitVec 2
  pc : Nat
  fPc : Nat
  fOp : Byte
  fLen : BitVec 3
  fAvail : Nat
  nReg : Nat
deriving DecidableEq, Repr

/-- What the host reads on the status port (R30, R32): all of the block's control and status state, and `pc`. -/
def State.status (s : State) : StatusPort :=
  { st := s.st.code, pc := s.pc, fPc := s.fault.fPc, fOp := s.fault.fOp, fLen := s.fault.fLen, fAvail := s.fault.fAvail
    nReg := s.n }

end Sys2Proof.Machine
end

