-- ==== Sys2Proof/Machine/Render.lean ====
section
/-!
DEFINITION. The rendering of a record as its listing line, a pure function of the record (40_decode_unit.md R100 to R102,
30_encoding.md R70).
-/

namespace Sys2Proof.Machine

/-- The character of a digit: `0`-`9`, then `A`-`F` (R100). -/
def digitChar (d : Nat) : Char := Char.ofNat (if d < 10 then 48 + d else 55 + d)

/-- The digits of `v` in base `b`, most significant first, with no leading zero but for `v = 0` itself. The first argument bounds
the number of digits; `v + 1` always suffices for a base of 2 or more. -/
def digits (b : Nat) : Nat → Nat → List Char
  | 0, _ => []
  | fuel + 1, v => if v < b then [digitChar v] else digits b fuel (v / b) ++ [digitChar (v % b)]

/-- Pad on the left with `0` to at least `w` characters. -/
def padLeft (w : Nat) (cs : List Char) : List Char := List.replicate (w - cs.length) '0' ++ cs

/-- `hex2(a)` (R100). -/
def hex2 (a : Nat) : String := String.ofList (padLeft Config.addrDigitsMin (digits 16 (a + 1) a))

/-- `dec(v)` (R101). -/
def dec (v : Byte) : String := String.ofList (digits 10 (v.toNat + 1) v.toNat)

/-- `MNEM` of a class (R102); UNKNOWN renders as `DB` (R70). -/
def mnemonic : Cls → String
  | .unknown => "DB"
  | .loadImm => "LOAD_IMM"
  | .loadAddr => "LOAD_ADDR"
  | .storeAddr => "STORE_ADDR"
  | .add => "ADD"
  | .mod => "MOD"
  | .xor => "XOR"
  | .inc => "INC"
  | .cmp => "CMP"
  | .jmp => "JMP"
  | .jnz => "JNZ"
  | .loadInd => "LOAD_IND"

/-- `opnd(k, v)` (R102). -/
def renderOperand : Kind → Byte → String
  | .reg, v => "R" ++ dec v
  | .imm, v => dec v
  | .none, v => dec v

/-- `join(", ", ...)` (R102). -/
def joinOperands : List String → String
  | [] => ""
  | [x] => x
  | x :: y :: xs => x ++ ", " ++ joinOperands (y :: xs)

/-- The operands of a record: slots 1 to `len - 1`, rendered (R102). -/
def renderedOperands (d : DecodedInstr) : List String :=
  [renderOperand d.k1 d.f1, renderOperand d.k2 d.f2, renderOperand d.k3 d.f3].take (d.len.toNat - 1)

/-- `text(d)` (R102). -/
def text (d : DecodedInstr) : String :=
  if d.cls = .unknown then "DB " ++ dec d.op
  else mnemonic d.cls ++ " " ++ joinOperands (renderedOperands d)

/-- `line(d)` (R102). -/
def line (d : DecodedInstr) : String := hex2 d.addr ++ ": " ++ text d

/-- The source's `DecodedLine`: the address and the line (R102). -/
def decodedLine (d : DecodedInstr) : Nat × String := (d.addr, line d)

/-- The listing of the current pass: the lines of its records, in order, with no header or summary (R102). -/
def listing (s : State) : List String := s.out.map line

end Sys2Proof.Machine
end

