-- ==== Sys2Proof/Safety.lean ====
section
/-!
DEFINITION. The terms claims use: what the host owes a pass, runs, and the invariants of a pass.
-/

namespace Sys2Proof.Machine

/-- `k` steps of the machine, stopping at the first fault or refusal. -/
def runFor : Nat → State → Result
  | 0, s => .next s
  | k + 1, s =>
    match step s with
    | .next t => runFor k t
    | .fault f => .fault f
    | .refused r => .refused r

/-- A pass is in progress and the host does nothing more. -/
abbrev Running (s : State) : Prop := s.st = .run ∧ s.turns = []

/-- The host has placed every byte of the buffer (R174, item 1). -/
def Programmed (s : State) : Prop := ∀ a, a < s.n → ∃ b, Memory.lookup s.prog a = some b

/-- A pass has ended (R175). -/
def Ended (s : State) : Prop := s.st = .done ∨ s.st = .fault

/-- The buffer holds these bytes from offset `a` on. -/
def BytesAt (m : Memory) : Nat → List Byte → Prop
  | _, [] => True
  | a, b :: bs => Memory.lookup m a = some b ∧ BytesAt m (a + 1) bs

/-- `f` is the byte of operand slot `k` of an instruction of length `len` at `a`: the buffer's byte, or 0 if the instruction has no
such slot (R94). -/
def SlotHolds (m : Memory) (a : Nat) (len : BitVec 3) (k : Nat) (f : Byte) : Prop :=
  if k < len.toNat then Memory.lookup m (a + k) = some f else f = 0

/-- The record an instruction's rule gives at an address (R110 to R113, R120 to R124, R130, R131, R140). -/
def recordOf : Instr → Nat → DecodedInstr
  | .loadImm r imm => recordRI .loadImm 0x01 r imm
  | .loadAddr r imm base => recordRIR .loadAddr 0x02 r imm base
  | .storeAddr off base src => recordIRR .storeAddr 0x03 off base src
  | .add r1 r2 rd => recordRRR .add 0x04 r1 r2 rd
  | .mod r imm rd => recordRIR .mod 0x05 r imm rd
  | .xor r1 r2 rd => recordRRR .xor 0x06 r1 r2 rd
  | .inc r => recordR .inc 0x07 r
  | .cmp r imm => recordRI .cmp 0x08 r imm
  | .jmp imm => recordI .jmp 0x09 imm
  | .jnz imm => recordI .jnz 0x0A imm
  | .loadInd rd rs => recordRR .loadInd 0x0B rd rs
  | .unknown op => recordO .unknown op

/-- The lengths of records, added up (R98). -/
def totalLength (ds : List DecodedInstr) : Nat := (ds.map fun d => d.len.toNat).sum

/-- A record agrees with the decode ROM, and its unused slots are 0 (R31, R94). -/
def RecordOk (d : DecodedInstr) : Prop :=
  d = romRecord d.addr d.op d.f1 d.f2 d.f3 ∧
  (d.len.toNat ≤ 1 → d.f1 = 0) ∧ (d.len.toNat ≤ 2 → d.f2 = 0) ∧ (d.len.toNat ≤ 3 → d.f3 = 0)

/-- A record shows the bytes the buffer holds at its address (R31). -/
def RecordShows (m : Memory) (d : DecodedInstr) : Prop :=
  Memory.lookup m d.addr = some d.op ∧
  SlotHolds m d.addr d.len 1 d.f1 ∧ SlotHolds m d.addr d.len 2 d.f2 ∧ SlotHolds m d.addr d.len 3 d.f3

/-- Each record starts where the one before it ended, and the last one ends at `e` (R22, R45, R95). -/
def Abut : List DecodedInstr → Nat → Prop
  | [], _ => True
  | [d], e => d.addr + d.len.toNat = e
  | d :: d' :: ds, e => d.addr + d.len.toNat = d'.addr ∧ Abut (d' :: ds) e

/-- What holds of the block's state between any two steps. -/
structure PassInv (s : State) : Prop where
  /-- The buffer keeps its canonical form. -/
  progWf : Memory.wf s.prog
  /-- Every record agrees with the ROM (R31). -/
  recordsOk : ∀ d ∈ s.out, RecordOk d
  /-- Records abut, and `pc` is where the last one ended (R45, R95). -/
  recordsAbut : Abut s.out s.pc
  /-- After a record, `pc` is within the buffer (R21, R97). -/
  pcWithin : s.out ≠ [] → s.pc ≤ s.n
  /-- During RUN the records show the buffer's own bytes (R31, R52). -/
  recordsShow : s.st = .run → ∀ d ∈ s.out, RecordShows s.prog d
  /-- IDLE is as after reset (R23, R33). -/
  idle : s.st = .idle → s.pc = 0 ∧ s.n = 0 ∧ s.out = []
  /-- DONE means that the end was reached (R23, R91). -/
  done : s.st = .done → s.n ≤ s.pc
  /-- The fault record is all 0 outside FAULT (R24, R175). -/
  noFault : s.st ≠ .fault → s.fault = FaultRecord.zero
  /-- In FAULT the fault record describes the truncated instruction at `pc` (R24, R155). -/
  inFault : s.st = .fault → s.fault.fPc = s.pc ∧ s.fault.fLen = (rom s.fault.fOp).len ∧
    s.fault.fAvail = s.n - s.pc ∧ 1 ≤ s.fault.fAvail ∧ s.fault.fAvail < s.fault.fLen.toNat

/-- Every register of `PC_W` bits holds a value below `2^PC_W`, and N is at most `N_MAX` (R6, R21). -/
structure BoundsInv (s : State) : Prop where
  n : s.n ≤ Config.nMax
  pc : s.pc < 2 ^ Config.pcW
  fPc : s.fault.fPc < 2 ^ Config.pcW
  fAvail : s.fault.fAvail < 2 ^ Config.pcW
  addrs : ∀ d ∈ s.out, d.addr < 2 ^ Config.pcW

/-! ### Reading renderings back -/

/-- The value of a digit character, `0`-`9` or `A`-`F`; none for any other character (R100). -/
def digitValue (c : Char) : Option Nat :=
  if '0' ≤ c ∧ c ≤ '9' then some (c.toNat - 48)
  else if 'A' ≤ c ∧ c ≤ 'F' then some (c.toNat - 55)
  else none

/-- The number that characters stand for in a base: each of them a digit of that base, most significant first. -/
def readDigits (base : Nat) (cs : List Char) : Option Nat :=
  cs.foldl (fun acc c => do
    let v ← acc
    let d ← digitValue c
    if d < base then some (v * base + d) else none) (some 0)

end Sys2Proof.Machine
end

