-- ==== Sys2Proof/Certificates/Slice0/Obligations.lean ====
section
/-!
DEFINITION. The statements. Each cites the rules of spec/ it formalises; a clause that rests on a choice of the model names the log
entry.
-/

open Sys2Proof Sys2Proof.Machine

/-- O1. Encoder and decoder agree on every well-formed instruction (30_encoding.md R60, R61, R65). -/
def Obligations.DecodeOfEncodeIsTheInstruction : Prop :=
  ∀ (i : Instr) (rest : List Byte), i.wf = true → decode (encode i ++ rest) = .ok (i, rest)

/-- O2. The other direction of the round trip: each byte sequence has one meaning (30_encoding.md R60, R61, R69). -/
def Obligations.EncodeOfDecodeGivesTheBytes : Prop :=
  ∀ (bs : List Byte) (i : Instr) (rest : List Byte), decode bs = .ok (i, rest) → i.wf = true ∧ encode i ++ rest = bs

/-- O3. No encoding is illegal or reserved; the one failure is truncation (30_encoding.md R67, R68). -/
def Obligations.DecodeRejectsOnlyShortInput : Prop :=
  ∀ (bs : List Byte) (e : DecodeError), decode bs = .error e ↔
    (bs = [] ∧ e = .noOpcode) ∨
    (∃ op tl, bs = op :: tl ∧ bs.length < (lengthOf op).toNat ∧ e = .truncated op (lengthOf op).toNat bs.length)

/-- O4. Sanity: a word of each row of opcode_table.json, in the table's numbering of bits. -/
def Obligations.SpecWordsDecodeToTheirInstructions : Prop :=
  decodeTableWord 24 0xFF0301 = some (.loadImm 0x03 0xFF) ∧
  decodeTableWord 32 0x02100102 = some (.loadAddr 0x01 0x10 0x02) ∧
  decodeTableWord 32 0x06050403 = some (.storeAddr 0x04 0x05 0x06) ∧
  decodeTableWord 32 0x03020104 = some (.add 0x01 0x02 0x03) ∧
  decodeTableWord 32 0x020A0105 = some (.mod 0x01 0x0A 0x02) ∧
  decodeTableWord 32 0x00000006 = some (.xor 0x00 0x00 0x00) ∧
  decodeTableWord 16 0x0207 = some (.inc 0x02) ∧
  decodeTableWord 24 0x050108 = some (.cmp 0x01 0x05) ∧
  decodeTableWord 16 0xFF09 = some (.jmp 0xFF) ∧
  decodeTableWord 16 0x060A = some (.jnz 0x06) ∧
  decodeTableWord 24 0x08070B = some (.loadInd 0x07 0x08) ∧
  decodeTableWord 8 0x0C = some (.unknown 0x0C)

/-- O5. The length calculator (30_encoding.md R62). -/
def Obligations.LengthCalculatorFollowsItsTable : Prop :=
  ∀ op : Byte,
    (op ∈ [0x02, 0x03, 0x04, 0x05, 0x06] → lengthOf op = 4) ∧
    (op ∈ [0x01, 0x08, 0x0B] → lengthOf op = 3) ∧
    (op ∈ [0x07, 0x09, 0x0A] → lengthOf op = 2) ∧
    (op ∉ [0x01, 0x02, 0x03, 0x04, 0x05, 0x06, 0x07, 0x08, 0x09, 0x0A, 0x0B] → lengthOf op = 1) ∧
    lengthOf op = (rom op).len ∧
    (definedOpcode op = true →
      (lengthOf op).toNat = 1 + ([(rom op).k1, (rom op).k2, (rom op).k3].filter (· ≠ .none)).length)

/-- O6. The contents and the packing of the decode ROM (30_encoding.md R66). -/
def Obligations.DecodeRomHoldsTheTable : Prop :=
  rom 0x01 = ⟨.loadImm, 3, .reg, .imm, .none⟩ ∧ (rom 0x01).word = 0x02D8 ∧ (rom 0x01).cls.code = 0x1 ∧
  rom 0x02 = ⟨.loadAddr, 4, .reg, .imm, .reg⟩ ∧ (rom 0x02).word = 0x0519 ∧ (rom 0x02).cls.code = 0x2 ∧
  rom 0x03 = ⟨.storeAddr, 4, .imm, .reg, .reg⟩ ∧ (rom 0x03).word = 0x0725 ∧ (rom 0x03).cls.code = 0x3 ∧
  rom 0x04 = ⟨.add, 4, .reg, .reg, .reg⟩ ∧ (rom 0x04).word = 0x0915 ∧ (rom 0x04).cls.code = 0x4 ∧
  rom 0x05 = ⟨.mod, 4, .reg, .imm, .reg⟩ ∧ (rom 0x05).word = 0x0B19 ∧ (rom 0x05).cls.code = 0x5 ∧
  rom 0x06 = ⟨.xor, 4, .reg, .reg, .reg⟩ ∧ (rom 0x06).word = 0x0D15 ∧ (rom 0x06).cls.code = 0x6 ∧
  rom 0x07 = ⟨.inc, 2, .reg, .none, .none⟩ ∧ (rom 0x07).word = 0x0E90 ∧ (rom 0x07).cls.code = 0x7 ∧
  rom 0x08 = ⟨.cmp, 3, .reg, .imm, .none⟩ ∧ (rom 0x08).word = 0x10D8 ∧ (rom 0x08).cls.code = 0x8 ∧
  rom 0x09 = ⟨.jmp, 2, .imm, .none, .none⟩ ∧ (rom 0x09).word = 0x12A0 ∧ (rom 0x09).cls.code = 0x9 ∧
  rom 0x0A = ⟨.jnz, 2, .imm, .none, .none⟩ ∧ (rom 0x0A).word = 0x14A0 ∧ (rom 0x0A).cls.code = 0xA ∧
  rom 0x0B = ⟨.loadInd, 3, .reg, .reg, .none⟩ ∧ (rom 0x0B).word = 0x16D4 ∧ (rom 0x0B).cls.code = 0xB ∧
  (∀ op : Byte, definedOpcode op = false →
    rom op = ⟨.unknown, 1, .none, .none, .none⟩ ∧ (rom op).word = 0x0040 ∧ (rom op).cls.code = 0x0) ∧
  (∀ op : Byte, (rom op).word.extractLsb 12 9 = (rom op).cls.code ∧ (rom op).word.extractLsb 8 6 = (rom op).len ∧
    (rom op).word.extractLsb 5 4 = (rom op).k1.code ∧ (rom op).word.extractLsb 3 2 = (rom op).k2.code ∧
    (rom op).word.extractLsb 1 0 = (rom op).k3.code ∧ (rom op).cls.code.toNat ≤ 0xB) ∧
  Kind.none.code = 0b00 ∧ Kind.reg.code = 0b01 ∧ Kind.imm.code = 0b10

/-- O7. LOAD_IMM (41_load_store.md R110). -/
def Obligations.LoadImmDecodesToItsRecord : Prop :=
  ∀ (r : RegIndex) (imm : Imm) (s : State),
    encode (.loadImm r imm) = [0x01, r, imm] ∧
    (∀ rest, decode (0x01 :: r :: imm :: rest) = .ok (.loadImm r imm, rest)) ∧
    (s.pc + 3 ≤ s.n → exec (.loadImm r imm) s = .next { s with
      out := s.out ++ [{ addr := s.pc, op := 0x01, cls := .loadImm, len := 3, f1 := r, f2 := imm, f3 := 0, k1 := .reg, k2 := .imm, k3 := .none }]
      pc := s.pc + 3 }) ∧
    (s.n - s.pc = 1 ∨ s.n - s.pc = 2 → exec (.loadImm r imm) s = .next { s with
      st := .fault
      fault := { fPc := s.pc, fOp := 0x01, fLen := 3, fAvail := s.n - s.pc } }) ∧
    Cls.loadImm.code = 0x1 ∧
    (∀ a, line { addr := a, op := 0x01, cls := .loadImm, len := 3, f1 := r, f2 := imm, f3 := 0, k1 := .reg, k2 := .imm, k3 := .none } =
      hex2 a ++ ": LOAD_IMM R" ++ dec r ++ ", " ++ dec imm) ∧
    line { addr := 0, op := 0x01, cls := .loadImm, len := 3, f1 := 0x00, f2 := 0x00, f3 := 0, k1 := .reg, k2 := .imm, k3 := .none } = "00: LOAD_IMM R0, 0"

/-- O8. LOAD_ADDR (41_load_store.md R111). -/
def Obligations.LoadAddrDecodesToItsRecord : Prop :=
  ∀ (r : RegIndex) (imm : Imm) (base : RegIndex) (s : State),
    encode (.loadAddr r imm base) = [0x02, r, imm, base] ∧
    (∀ rest, decode (0x02 :: r :: imm :: base :: rest) = .ok (.loadAddr r imm base, rest)) ∧
    (s.pc + 4 ≤ s.n → exec (.loadAddr r imm base) s = .next { s with
      out := s.out ++ [{ addr := s.pc, op := 0x02, cls := .loadAddr, len := 4, f1 := r, f2 := imm, f3 := base, k1 := .reg, k2 := .imm, k3 := .reg }]
      pc := s.pc + 4 }) ∧
    (s.n - s.pc = 1 ∨ s.n - s.pc = 2 ∨ s.n - s.pc = 3 → exec (.loadAddr r imm base) s = .next { s with
      st := .fault
      fault := { fPc := s.pc, fOp := 0x02, fLen := 4, fAvail := s.n - s.pc } }) ∧
    Cls.loadAddr.code = 0x2 ∧
    (∀ a, line { addr := a, op := 0x02, cls := .loadAddr, len := 4, f1 := r, f2 := imm, f3 := base, k1 := .reg, k2 := .imm, k3 := .reg } =
      hex2 a ++ ": LOAD_ADDR R" ++ dec r ++ ", " ++ dec imm ++ ", R" ++ dec base) ∧
    line { addr := 0, op := 0x02, cls := .loadAddr, len := 4, f1 := 0x01, f2 := 0x10, f3 := 0x02, k1 := .reg, k2 := .imm, k3 := .reg } = "00: LOAD_ADDR R1, 16, R2"

/-- O9. STORE_ADDR (41_load_store.md R112). -/
def Obligations.StoreAddrDecodesToItsRecord : Prop :=
  ∀ (off : Imm) (base : RegIndex) (src : RegIndex) (s : State),
    encode (.storeAddr off base src) = [0x03, off, base, src] ∧
    (∀ rest, decode (0x03 :: off :: base :: src :: rest) = .ok (.storeAddr off base src, rest)) ∧
    (s.pc + 4 ≤ s.n → exec (.storeAddr off base src) s = .next { s with
      out := s.out ++ [{ addr := s.pc, op := 0x03, cls := .storeAddr, len := 4, f1 := off, f2 := base, f3 := src, k1 := .imm, k2 := .reg, k3 := .reg }]
      pc := s.pc + 4 }) ∧
    (s.n - s.pc = 1 ∨ s.n - s.pc = 2 ∨ s.n - s.pc = 3 → exec (.storeAddr off base src) s = .next { s with
      st := .fault
      fault := { fPc := s.pc, fOp := 0x03, fLen := 4, fAvail := s.n - s.pc } }) ∧
    Cls.storeAddr.code = 0x3 ∧
    (∀ a, line { addr := a, op := 0x03, cls := .storeAddr, len := 4, f1 := off, f2 := base, f3 := src, k1 := .imm, k2 := .reg, k3 := .reg } =
      hex2 a ++ ": STORE_ADDR " ++ dec off ++ ", R" ++ dec base ++ ", R" ++ dec src) ∧
    line { addr := 0, op := 0x03, cls := .storeAddr, len := 4, f1 := 0x04, f2 := 0x05, f3 := 0x06, k1 := .imm, k2 := .reg, k3 := .reg } = "00: STORE_ADDR 4, R5, R6"

/-- O10. ADD (42_alu.md R120). -/
def Obligations.AddDecodesToItsRecord : Prop :=
  ∀ (r1 : RegIndex) (r2 : RegIndex) (rd : RegIndex) (s : State),
    encode (.add r1 r2 rd) = [0x04, r1, r2, rd] ∧
    (∀ rest, decode (0x04 :: r1 :: r2 :: rd :: rest) = .ok (.add r1 r2 rd, rest)) ∧
    (s.pc + 4 ≤ s.n → exec (.add r1 r2 rd) s = .next { s with
      out := s.out ++ [{ addr := s.pc, op := 0x04, cls := .add, len := 4, f1 := r1, f2 := r2, f3 := rd, k1 := .reg, k2 := .reg, k3 := .reg }]
      pc := s.pc + 4 }) ∧
    (s.n - s.pc = 1 ∨ s.n - s.pc = 2 ∨ s.n - s.pc = 3 → exec (.add r1 r2 rd) s = .next { s with
      st := .fault
      fault := { fPc := s.pc, fOp := 0x04, fLen := 4, fAvail := s.n - s.pc } }) ∧
    Cls.add.code = 0x4 ∧
    (∀ a, line { addr := a, op := 0x04, cls := .add, len := 4, f1 := r1, f2 := r2, f3 := rd, k1 := .reg, k2 := .reg, k3 := .reg } =
      hex2 a ++ ": ADD R" ++ dec r1 ++ ", R" ++ dec r2 ++ ", R" ++ dec rd) ∧
    line { addr := 0, op := 0x04, cls := .add, len := 4, f1 := 0x01, f2 := 0x02, f3 := 0x03, k1 := .reg, k2 := .reg, k3 := .reg } = "00: ADD R1, R2, R3"

/-- O11. MOD (42_alu.md R121). -/
def Obligations.ModDecodesToItsRecord : Prop :=
  ∀ (r : RegIndex) (imm : Imm) (rd : RegIndex) (s : State),
    encode (.mod r imm rd) = [0x05, r, imm, rd] ∧
    (∀ rest, decode (0x05 :: r :: imm :: rd :: rest) = .ok (.mod r imm rd, rest)) ∧
    (s.pc + 4 ≤ s.n → exec (.mod r imm rd) s = .next { s with
      out := s.out ++ [{ addr := s.pc, op := 0x05, cls := .mod, len := 4, f1 := r, f2 := imm, f3 := rd, k1 := .reg, k2 := .imm, k3 := .reg }]
      pc := s.pc + 4 }) ∧
    (s.n - s.pc = 1 ∨ s.n - s.pc = 2 ∨ s.n - s.pc = 3 → exec (.mod r imm rd) s = .next { s with
      st := .fault
      fault := { fPc := s.pc, fOp := 0x05, fLen := 4, fAvail := s.n - s.pc } }) ∧
    Cls.mod.code = 0x5 ∧
    (∀ a, line { addr := a, op := 0x05, cls := .mod, len := 4, f1 := r, f2 := imm, f3 := rd, k1 := .reg, k2 := .imm, k3 := .reg } =
      hex2 a ++ ": MOD R" ++ dec r ++ ", " ++ dec imm ++ ", R" ++ dec rd) ∧
    line { addr := 0, op := 0x05, cls := .mod, len := 4, f1 := 0x01, f2 := 0x0A, f3 := 0x02, k1 := .reg, k2 := .imm, k3 := .reg } = "00: MOD R1, 10, R2"

/-- O12. XOR (42_alu.md R122). -/
def Obligations.XorDecodesToItsRecord : Prop :=
  ∀ (r1 : RegIndex) (r2 : RegIndex) (rd : RegIndex) (s : State),
    encode (.xor r1 r2 rd) = [0x06, r1, r2, rd] ∧
    (∀ rest, decode (0x06 :: r1 :: r2 :: rd :: rest) = .ok (.xor r1 r2 rd, rest)) ∧
    (s.pc + 4 ≤ s.n → exec (.xor r1 r2 rd) s = .next { s with
      out := s.out ++ [{ addr := s.pc, op := 0x06, cls := .xor, len := 4, f1 := r1, f2 := r2, f3 := rd, k1 := .reg, k2 := .reg, k3 := .reg }]
      pc := s.pc + 4 }) ∧
    (s.n - s.pc = 1 ∨ s.n - s.pc = 2 ∨ s.n - s.pc = 3 → exec (.xor r1 r2 rd) s = .next { s with
      st := .fault
      fault := { fPc := s.pc, fOp := 0x06, fLen := 4, fAvail := s.n - s.pc } }) ∧
    Cls.xor.code = 0x6 ∧
    (∀ a, line { addr := a, op := 0x06, cls := .xor, len := 4, f1 := r1, f2 := r2, f3 := rd, k1 := .reg, k2 := .reg, k3 := .reg } =
      hex2 a ++ ": XOR R" ++ dec r1 ++ ", R" ++ dec r2 ++ ", R" ++ dec rd) ∧
    line { addr := 0, op := 0x06, cls := .xor, len := 4, f1 := 0x00, f2 := 0x00, f3 := 0x00, k1 := .reg, k2 := .reg, k3 := .reg } = "00: XOR R0, R0, R0"

/-- O13. INC (42_alu.md R123). -/
def Obligations.IncDecodesToItsRecord : Prop :=
  ∀ (r : RegIndex) (s : State),
    encode (.inc r) = [0x07, r] ∧
    (∀ rest, decode (0x07 :: r :: rest) = .ok (.inc r, rest)) ∧
    (s.pc + 2 ≤ s.n → exec (.inc r) s = .next { s with
      out := s.out ++ [{ addr := s.pc, op := 0x07, cls := .inc, len := 2, f1 := r, f2 := 0, f3 := 0, k1 := .reg, k2 := .none, k3 := .none }]
      pc := s.pc + 2 }) ∧
    (s.n - s.pc = 1 → exec (.inc r) s = .next { s with
      st := .fault
      fault := { fPc := s.pc, fOp := 0x07, fLen := 2, fAvail := s.n - s.pc } }) ∧
    Cls.inc.code = 0x7 ∧
    (∀ a, line { addr := a, op := 0x07, cls := .inc, len := 2, f1 := r, f2 := 0, f3 := 0, k1 := .reg, k2 := .none, k3 := .none } =
      hex2 a ++ ": INC R" ++ dec r) ∧
    line { addr := 0, op := 0x07, cls := .inc, len := 2, f1 := 0x02, f2 := 0, f3 := 0, k1 := .reg, k2 := .none, k3 := .none } = "00: INC R2"

/-- O14. CMP (42_alu.md R124). -/
def Obligations.CmpDecodesToItsRecord : Prop :=
  ∀ (r : RegIndex) (imm : Imm) (s : State),
    encode (.cmp r imm) = [0x08, r, imm] ∧
    (∀ rest, decode (0x08 :: r :: imm :: rest) = .ok (.cmp r imm, rest)) ∧
    (s.pc + 3 ≤ s.n → exec (.cmp r imm) s = .next { s with
      out := s.out ++ [{ addr := s.pc, op := 0x08, cls := .cmp, len := 3, f1 := r, f2 := imm, f3 := 0, k1 := .reg, k2 := .imm, k3 := .none }]
      pc := s.pc + 3 }) ∧
    (s.n - s.pc = 1 ∨ s.n - s.pc = 2 → exec (.cmp r imm) s = .next { s with
      st := .fault
      fault := { fPc := s.pc, fOp := 0x08, fLen := 3, fAvail := s.n - s.pc } }) ∧
    Cls.cmp.code = 0x8 ∧
    (∀ a, line { addr := a, op := 0x08, cls := .cmp, len := 3, f1 := r, f2 := imm, f3 := 0, k1 := .reg, k2 := .imm, k3 := .none } =
      hex2 a ++ ": CMP R" ++ dec r ++ ", " ++ dec imm) ∧
    line { addr := 0, op := 0x08, cls := .cmp, len := 3, f1 := 0x01, f2 := 0x05, f3 := 0, k1 := .reg, k2 := .imm, k3 := .none } = "00: CMP R1, 5"

/-- O15. JMP (43_jump.md R130). -/
def Obligations.JmpDecodesToItsRecord : Prop :=
  ∀ (imm : Imm) (s : State),
    encode (.jmp imm) = [0x09, imm] ∧
    (∀ rest, decode (0x09 :: imm :: rest) = .ok (.jmp imm, rest)) ∧
    (s.pc + 2 ≤ s.n → exec (.jmp imm) s = .next { s with
      out := s.out ++ [{ addr := s.pc, op := 0x09, cls := .jmp, len := 2, f1 := imm, f2 := 0, f3 := 0, k1 := .imm, k2 := .none, k3 := .none }]
      pc := s.pc + 2 }) ∧
    (s.n - s.pc = 1 → exec (.jmp imm) s = .next { s with
      st := .fault
      fault := { fPc := s.pc, fOp := 0x09, fLen := 2, fAvail := s.n - s.pc } }) ∧
    Cls.jmp.code = 0x9 ∧
    (∀ a, line { addr := a, op := 0x09, cls := .jmp, len := 2, f1 := imm, f2 := 0, f3 := 0, k1 := .imm, k2 := .none, k3 := .none } =
      hex2 a ++ ": JMP " ++ dec imm) ∧
    line { addr := 2, op := 0x09, cls := .jmp, len := 2, f1 := 0x00, f2 := 0, f3 := 0, k1 := .imm, k2 := .none, k3 := .none } = "02: JMP 0"

/-- O16. JNZ (43_jump.md R131). -/
def Obligations.JnzDecodesToItsRecord : Prop :=
  ∀ (imm : Imm) (s : State),
    encode (.jnz imm) = [0x0A, imm] ∧
    (∀ rest, decode (0x0A :: imm :: rest) = .ok (.jnz imm, rest)) ∧
    (s.pc + 2 ≤ s.n → exec (.jnz imm) s = .next { s with
      out := s.out ++ [{ addr := s.pc, op := 0x0A, cls := .jnz, len := 2, f1 := imm, f2 := 0, f3 := 0, k1 := .imm, k2 := .none, k3 := .none }]
      pc := s.pc + 2 }) ∧
    (s.n - s.pc = 1 → exec (.jnz imm) s = .next { s with
      st := .fault
      fault := { fPc := s.pc, fOp := 0x0A, fLen := 2, fAvail := s.n - s.pc } }) ∧
    Cls.jnz.code = 0xA ∧
    (∀ a, line { addr := a, op := 0x0A, cls := .jnz, len := 2, f1 := imm, f2 := 0, f3 := 0, k1 := .imm, k2 := .none, k3 := .none } =
      hex2 a ++ ": JNZ " ++ dec imm) ∧
    line { addr := 0, op := 0x0A, cls := .jnz, len := 2, f1 := 0x06, f2 := 0, f3 := 0, k1 := .imm, k2 := .none, k3 := .none } = "00: JNZ 6"

/-- O17. LOAD_IND (41_load_store.md R113). -/
def Obligations.LoadIndDecodesToItsRecord : Prop :=
  ∀ (rd : RegIndex) (rs : RegIndex) (s : State),
    encode (.loadInd rd rs) = [0x0B, rd, rs] ∧
    (∀ rest, decode (0x0B :: rd :: rs :: rest) = .ok (.loadInd rd rs, rest)) ∧
    (s.pc + 3 ≤ s.n → exec (.loadInd rd rs) s = .next { s with
      out := s.out ++ [{ addr := s.pc, op := 0x0B, cls := .loadInd, len := 3, f1 := rd, f2 := rs, f3 := 0, k1 := .reg, k2 := .reg, k3 := .none }]
      pc := s.pc + 3 }) ∧
    (s.n - s.pc = 1 ∨ s.n - s.pc = 2 → exec (.loadInd rd rs) s = .next { s with
      st := .fault
      fault := { fPc := s.pc, fOp := 0x0B, fLen := 3, fAvail := s.n - s.pc } }) ∧
    Cls.loadInd.code = 0xB ∧
    (∀ a, line { addr := a, op := 0x0B, cls := .loadInd, len := 3, f1 := rd, f2 := rs, f3 := 0, k1 := .reg, k2 := .reg, k3 := .none } =
      hex2 a ++ ": LOAD_IND R" ++ dec rd ++ ", R" ++ dec rs) ∧
    line { addr := 0, op := 0x0B, cls := .loadInd, len := 3, f1 := 0x07, f2 := 0x08, f3 := 0, k1 := .reg, k2 := .reg, k3 := .none } = "00: LOAD_IND R7, R8"

/-- O18. UNKNOWN (44_unknown.md R140). -/
def Obligations.UnknownDecodesToItsRecord : Prop :=
  ((List.range 256).filter fun b => !definedOpcode (BitVec.ofNat 8 b)).length = 245 ∧
  (∀ (op : Byte) (s : State), definedOpcode op = false →
    encode (.unknown op) = [op] ∧
    (∀ rest, decode (op :: rest) = .ok (.unknown op, rest)) ∧
    (s.pc < s.n → exec (.unknown op) s = .next { s with
      out := s.out ++ [{ addr := s.pc, op, cls := .unknown, len := 1, f1 := 0, f2 := 0, f3 := 0, k1 := .none, k2 := .none, k3 := .none }]
      pc := s.pc + 1 }) ∧
    Cls.unknown.code = 0x0 ∧
    (∀ a, line { addr := a, op, cls := .unknown, len := 1, f1 := 0, f2 := 0, f3 := 0, k1 := .none, k2 := .none, k3 := .none } = hex2 a ++ ": DB " ++ dec op)) ∧
  definedOpcode 0x00 = false ∧ definedOpcode 0x0C = false ∧ definedOpcode 0xFF = false ∧
  line { addr := 0, op := 0x00, cls := .unknown, len := 1, f1 := 0, f2 := 0, f3 := 0, k1 := .none, k2 := .none, k3 := .none } = "00: DB 0" ∧
  line { addr := 0, op := 0x0C, cls := .unknown, len := 1, f1 := 0, f2 := 0, f3 := 0, k1 := .none, k2 := .none, k3 := .none } = "00: DB 12" ∧
  line { addr := 0, op := 0xFF, cls := .unknown, len := 1, f1 := 0, f2 := 0, f3 := 0, k1 := .none, k2 := .none, k3 := .none } = "00: DB 255"

/-- O19. The frame of all twelve instructions: LOAD_IMM, LOAD_ADDR, STORE_ADDR, ADD, MOD, XOR, INC, CMP, JMP, JNZ, LOAD_IND, UNKNOWN. None
stores (20_memory.md R43). The last clause with `pc >= N`, where no step calls exec (R91), is the model's choice and no rule of the
spec: exec makes the truncation test and not the stop test (log 7); with `pc < N` it is R155's fault entry. -/
def Obligations.ExecFrame : Prop :=
  ∀ (i : Instr) (s : State), ∃ t, exec i s = .next t ∧
    (∀ a, Memory.lookup t.prog a = Memory.lookup s.prog a) ∧ t.prog = s.prog ∧ t.n = s.n ∧ t.turns = s.turns ∧
    (s.pc + (encode i).length ≤ s.n →
      t.st = s.st ∧ t.fault = s.fault ∧ t.pc = s.pc + (encode i).length ∧
      ∃ d, t.out = s.out ++ [d] ∧ d.addr = s.pc ∧ d.len.toNat = (encode i).length) ∧
    (s.n < s.pc + (encode i).length → t.st = .fault ∧ t.pc = s.pc ∧ t.out = s.out)

/-- O20. Operands are carried as data and never followed (40_decode_unit.md R103, 60_exceptions.md R152). -/
def Obligations.OperandValuesSteerNothing : Prop :=
  ∀ (op f1 f2 f3 g1 g2 g3 : Byte) (s : State), ∃ t u,
    exec (decodeOp op f1 f2 f3) s = .next t ∧ exec (decodeOp op g1 g2 g3) s = .next u ∧
    t.st = u.st ∧ t.pc = u.pc ∧ t.fault = u.fault ∧ t.prog = u.prog ∧ t.n = u.n ∧ t.turns = u.turns ∧
    ((t.out = s.out ∧ u.out = s.out) ∨
     (∃ d e, t.out = s.out ++ [d] ∧ u.out = s.out ++ [e] ∧ d.addr = e.addr ∧ d.op = e.op ∧ d.cls = e.cls ∧
       d.len = e.len ∧ d.k1 = e.k1 ∧ d.k2 = e.k2 ∧ d.k3 = e.k3))

/-- O21. A step runs the decoded instruction; the `.block` turn is the model's own (log 3). -/
def Obligations.StepRunsTheDecodedInstruction : Prop :=
  ∀ (s : State) (bs rest : List Byte) (i : Instr), s.st = .run → BytesAt s.prog s.pc bs → s.pc + bs.length ≤ s.n →
    decode bs = .ok (i, rest) →
    i.wf = true ∧
    (s.turns = [] → step s = exec i s) ∧
    (∀ ts, s.turns = .block :: ts → step s = exec i { s with turns := ts })

/-- O22. Placing a word and stepping runs its instruction; the placing is the model's own (log 9). -/
def Obligations.FetchWordRunsItsInstruction : Prop :=
  ∀ (s : State) (nbits w : Nat) (i : Instr), decodeTableWord nbits w = some i →
    step (s.withFetchWord nbits w) = exec i { s.withFetchWord nbits w with turns := s.turns }

/-- O23. The two designs agree: instruction meanings on one side, ROM-driven record on the other (40_decode_unit.md R96). -/
def Obligations.RunningStepIsTheDecodeUnit : Prop :=
  (∀ s : State, Running s → step s = unitStep Config.truncPolicy s) ∧
  Config.truncPolicy = .fault ∧
  (∀ (p : TruncPolicy) (s s' : State), s'.prog = s.prog → s'.n = s.n → s'.pc = s.pc → decodeUnit p s' = decodeUnit p s)

/-- O24. The stop test (40_decode_unit.md R91). -/
def Obligations.StopTestEndsThePass : Prop :=
  (∀ s : State, Running s → s.n ≤ s.pc → step s = .next { s with st := .done }) ∧
  (∀ (s : State) (nIn p : Nat), s.turns = [] → nIn ≤ p →
    ∃ t, step (s.startPass nIn p) = .next t ∧ t.st = .done ∧ t.out = [] ∧ t.pc = p)

/-- O25. TruncatedInstruction (60_exceptions.md R150). -/
def Obligations.TruncatedInstructionIsTaken : Prop :=
  (∀ (s : State) (op : Byte), Running s → s.pc < s.n → Memory.lookup s.prog s.pc = some op →
    s.n < s.pc + (rom op).len.toNat →
    step s = .next { s with
      st := .fault
      fault := { fPc := s.pc, fOp := op, fLen := (rom op).len, fAvail := s.n - s.pc } }) ∧
  (∀ s t : State, Running s → step s = .next t → t.st = .fault →
    ∃ op, definedOpcode op = true ∧ Memory.lookup s.prog s.pc = some op ∧ 1 ≤ s.n - s.pc ∧
      s.n - s.pc ≤ (rom op).len.toNat - 1) ∧
  PassState.fault.code = 0b11 ∧ Config.truncPolicy = .fault

/-- O26. Operand extraction, emit and advance (40_decode_unit.md R94, R95). -/
def Obligations.WholeInstructionIsEmitted : Prop :=
  ∀ (s : State) (op f1 f2 f3 : Byte), Running s → s.pc + (rom op).len.toNat ≤ s.n →
    Memory.lookup s.prog s.pc = some op →
    SlotHolds s.prog s.pc (rom op).len 1 f1 → SlotHolds s.prog s.pc (rom op).len 2 f2 →
    SlotHolds s.prog s.pc (rom op).len 3 f3 →
    step s = .next { s with
      out := s.out ++ [{ addr := s.pc, op, cls := (rom op).cls, len := (rom op).len, f1, f2, f3, k1 := (rom op).k1, k2 := (rom op).k2, k3 := (rom op).k3 }]
      pc := s.pc + (rom op).len.toNat }

/-- O27. No step outside RUN; that the model answers the same state is its own convention (log 4). -/
def Obligations.OutsideRunTheStateIsHeld : Prop :=
  (∀ s : State, s.st = .idle ∨ s.st = .done ∨ s.st = .fault → s.turns = [] → step s = .next s) ∧
  step State.reset = .next State.reset

/-- O28. The program counter (10_state.md R20). -/
def Obligations.PcMovesOnlyByTheEmittedLength : Prop :=
  ∀ s t : State, Running s → step s = .next t →
    (t.pc = s.pc ∧ t.out = s.out) ∨
    (∃ d, t.out = s.out ++ [d] ∧ d.addr = s.pc ∧ Memory.lookup s.prog s.pc = some d.op ∧ d.len = (rom d.op).len ∧
      t.pc = s.pc + d.len.toNat)

/-- O29. Nothing else is an exception (60_exceptions.md R151). -/
def Obligations.OnlyTruncationIsAnException : Prop :=
  ∀ s : State, Running s → Programmed s → ∃ t, step s = .next t ∧
    (t.st = .fault ↔ s.pc < s.n ∧ ∃ op, Memory.lookup s.prog s.pc = some op ∧ s.n < s.pc + (rom op).len.toNat) ∧
    (t.st = .done ↔ s.n ≤ s.pc)

/-- O30. UNKNOWN is no stop condition (44_unknown.md R141). -/
def Obligations.UnknownBytesDoNotStopThePass : Prop :=
  (∀ (s : State) (op : Byte), Running s → s.pc < s.n → Memory.lookup s.prog s.pc = some op → definedOpcode op = false →
    ∃ t d, step s = .next t ∧ t.st = .run ∧ t.pc = s.pc + 1 ∧ t.out = s.out ++ [d]) ∧
  definedOpcode 0xFF = false ∧
  (∀ s t : State, Running s → step s = .next t → t.st ≠ .run →
    s.n ≤ s.pc ∨ ∃ op, Memory.lookup s.prog s.pc = some op ∧ s.n < s.pc + (rom op).len.toNat)

/-- O31. Once emitted, a record is never changed (10_state.md R31). -/
def Obligations.EmittedRecordsStay : Prop :=
  ∀ s t : State, s.turns = [] → step s = .next t → ∃ ds, t.out = s.out ++ ds ∧ ds.length ≤ 1

/-- O32. The one address space and its bound (20_memory.md R40). -/
def Obligations.NoStepReadsPastTheEnd : Prop :=
  (∀ (s : State) (a : Nat) (b : Byte), s.memRead a = .ok b ↔ a < s.n ∧ Memory.lookup s.prog a = some b) ∧
  (∀ (s : State) (a : Nat), step s ≠ .fault (.readPastEnd a))

/-- O33. The block never writes memory (20_memory.md R43). -/
def Obligations.BlockNeverWritesMemory : Prop :=
  ∀ s t : State, s.turns = [] → step s = .next t →
    t.prog = s.prog ∧ ∀ a, Memory.lookup t.prog a = Memory.lookup s.prog a

/-- O34. A record's fields depend only on the bytes at its own address (70_reset_and_hazards.md R177). -/
def Obligations.RecordDependsOnlyOnItsOwnBytes : Prop :=
  ∀ (s s' t : State) (op : Byte), Running s → Running s' → s'.pc = s.pc → Memory.lookup s.prog s.pc = some op →
    s.pc + (rom op).len.toNat ≤ s.n → s.pc + (rom op).len.toNat ≤ s'.n →
    (∀ a, s.pc ≤ a → a < s.pc + (rom op).len.toNat → Memory.lookup s'.prog a = Memory.lookup s.prog a) →
    step s = .next t →
    ∃ t' d, step s' = .next t' ∧ t.out = s.out ++ [d] ∧ t'.out = s'.out ++ [d] ∧ t'.pc = t.pc

/-- O35. The host's duty of R174, item 1; the form of the turn is the model's own (log 3, log 6). -/
def Obligations.PlacedProgramIsRead : Prop :=
  ∀ (s : State) (bytes : List Byte) (ts : List HostTurn), s.turns = .place bytes :: ts →
    (s.st ≠ .run → ∃ m, step s = .next { s with prog := m, turns := ts } ∧ Memory.wf m ∧
      ∀ a, Memory.lookup m a = bytes[a]?) ∧
    (s.st = .run → step s = .refused .programWriteDuringPass)

/-- O36. Reset (70_reset_and_hazards.md R170). -/
def Obligations.ResetSetsEveryRegister : Prop :=
  (∀ s : State, s.hostReset.st = .idle ∧ s.hostReset.pc = 0 ∧ s.hostReset.n = 0 ∧
    s.hostReset.fault = { fPc := 0, fOp := 0, fLen := 0, fAvail := 0 } ∧ s.hostReset.out = []) ∧
  State.reset.st = .idle ∧ State.reset.pc = 0 ∧ State.reset.n = 0 ∧
  State.reset.fault = { fPc := 0, fOp := 0, fLen := 0, fAvail := 0 } ∧ State.reset.out = []

/-- O37. Start (70_reset_and_hazards.md R171), the same in every pass state (R172). -/
def Obligations.StartBeginsAPass : Prop :=
  ∀ (s : State) (nIn p : Nat), nIn ≤ Config.nMax → p < 2 ^ Config.pcW →
    hostStart nIn p s = .next { s with
      n := nIn, pc := p, fault := { fPc := 0, fOp := 0, fLen := 0, fAvail := 0 }, out := [], st := .run }

/-- O38. Bounds at start (70_reset_and_hazards.md R173). -/
def Obligations.StartOutOfBoundsIsRefused : Prop :=
  (∀ (s : State) (nIn p : Nat),
    hostStart nIn p s = .refused (.startOutOfBounds nIn p) ↔ (2 ^ Config.pcW ≤ p ∨ Config.nMax < nIn)) ∧
  (∀ (s : State) (nIn p : Nat), s.turns = [] → nIn ≤ Config.nMax → p < 2 ^ Config.pcW → nIn ≤ p →
    ∃ t u, hostStart nIn p s = .next t ∧ step t = .next u ∧ u.st = .done ∧ u.out = [])

/-- O39. How step takes the host's turns: the model's own form of R172 (log 3, log 12). -/
def Obligations.HostTurnsActBetweenSteps : Prop :=
  ∀ (s : State) (ts : List HostTurn),
    (s.turns = [] → step s = blockStep s) ∧
    (s.turns = .block :: ts → step s = blockStep { s with turns := ts }) ∧
    (s.turns = .reset :: ts → ∃ t, step s = .next t ∧ t.st = .idle ∧ t.pc = 0 ∧ t.n = 0 ∧
      t.fault = FaultRecord.zero ∧ t.out = [] ∧ t.prog = s.prog ∧ t.turns = ts) ∧
    (∀ nIn p, s.turns = .start nIn p :: ts → step s = hostStart nIn p { s with turns := ts }) ∧
    (∀ bytes, s.turns = .place bytes :: ts → step s = hostPlace bytes { s with turns := ts })

/-- O40. DONE and FAULT are terminal (10_state.md R23, 60_exceptions.md R156); turns as in log 3. -/
def Obligations.OnlyStartOrResetLeavesAnEndedPass : Prop :=
  (∀ s t : State, Ended s → step s = .next t →
    t.st ≠ s.st ∨ t.pc ≠ s.pc ∨ t.n ≠ s.n ∨ t.fault ≠ s.fault ∨ t.out ≠ s.out →
    (∃ ts, s.turns = .reset :: ts) ∨ (∃ nIn p ts, s.turns = .start nIn p :: ts)) ∧
  PassState.idle.code = 0b00 ∧ PassState.run.code = 0b01 ∧ PassState.done.code = 0b10 ∧ PassState.fault.code = 0b11

/-- O41. The fault record (10_state.md R24). -/
def Obligations.FaultRecordIsWrittenOnlyOnEntry : Prop :=
  (∀ s t : State, s.turns = [] → step s = .next t → t.fault ≠ s.fault →
    s.st = .run ∧ t.st = .fault ∧ t.fault.fPc = s.pc ∧ Memory.lookup s.prog s.pc = some t.fault.fOp ∧
    t.fault.fLen = (rom t.fault.fOp).len ∧ t.fault.fAvail = s.n - s.pc ∧ 1 ≤ t.fault.fAvail ∧
    t.fault.fAvail < t.fault.fLen.toNat) ∧
  (∀ s t : State, s.turns = [] → step s = .next t → s.st ≠ .fault → t.st = .fault →
    t.fault.fPc = s.pc ∧ Memory.lookup s.prog s.pc = some t.fault.fOp ∧ t.fault.fLen = (rom t.fault.fOp).len ∧
    t.fault.fAvail = s.n - s.pc) ∧
  (∀ s : State, s.hostReset.fault = { fPc := 0, fOp := 0, fLen := 0, fAvail := 0 }) ∧
  (∀ (s : State) (nIn p : Nat), (s.startPass nIn p).fault = { fPc := 0, fOp := 0, fLen := 0, fAvail := 0 })

/-- O42. The status port (10_state.md R23, R30, R32); that it shows n_reg is the model's reading of R30 (log 18). -/
def Obligations.StatusPortTellsStatePcAndFault : Prop :=
  (∀ s : State, s.status.st = s.st.code ∧ s.status.pc = s.pc ∧ s.status.fPc = s.fault.fPc ∧
    s.status.fOp = s.fault.fOp ∧ s.status.fLen = s.fault.fLen ∧ s.status.fAvail = s.fault.fAvail ∧ s.status.nReg = s.n) ∧
  PassState.idle.code = 0b00 ∧ PassState.run.code = 0b01 ∧ PassState.done.code = 0b10 ∧ PassState.fault.code = 0b11 ∧
  (∀ s s' : State, s.status = s'.status ↔ s.st = s'.st ∧ s.pc = s'.pc ∧ s.fault = s'.fault ∧ s.n = s'.n)

/-- O43. The invariants hold at reset. -/
def Obligations.ResetMeetsTheInvariants : Prop :=
  PassInv State.reset ∧ BoundsInv State.reset

/-- O44. The invariant of a pass, kept by every step including the host's turns (10_state.md R23, R24, R31). -/
def Obligations.EveryStepKeepsThePassInvariant : Prop :=
  ∀ s t : State, PassInv s → step s = .next t → PassInv t

/-- O45. pc never wraps (10_state.md R21); PC_W and N_MAX have no body (log 2). -/
def Obligations.EveryStepKeepsTheBounds : Prop :=
  ∀ s t : State, BoundsInv s → step s = .next t → BoundsInv t

/-- O46. A pass always terminates, within its bound (40_decode_unit.md R97). -/
def Obligations.EveryPassTerminates : Prop :=
  (∀ s : State, Running s → s.out = [] → Programmed s →
    ∃ k t, k ≤ (s.n - s.pc) + 1 ∧ runFor k s = .next t ∧ Ended t ∧ t.out.length ≤ s.n - s.pc) ∧
  (∀ s t : State, Running s → step s = .next t → t.out ≠ s.out → s.pc + 1 ≤ t.pc ∧ t.pc ≤ s.n)

/-- O47. The properties of every pass (40_decode_unit.md R98). -/
def Obligations.PassAccountsForEveryByte : Prop :=
  ∀ (s t : State) (k : Nat), Running s → s.out = [] → runFor k s = .next t →
    (t.out.map (·.addr)).Pairwise (· < ·) ∧
    (∀ (i : Nat) (d : DecodedInstr), t.out[i]? = some d → d.addr = s.pc + totalLength (t.out.take i)) ∧
    (t.st = .done → s.pc ≤ s.n → totalLength t.out = s.n - s.pc) ∧
    (t.st = .fault → s.pc ≤ t.fault.fPc ∧ totalLength t.out = t.fault.fPc - s.pc ∧ t.fault.fAvail = s.n - t.fault.fPc)

/-- O48. A pass is deterministic and independent of what was before it (40_decode_unit.md R99). -/
def Obligations.PassDependsOnlyOnItsInputs : Prop :=
  ∀ (s s' t : State) (nIn p k : Nat), s.turns = [] → s'.turns = [] →
    (∀ a, a < nIn → Memory.lookup s'.prog a = Memory.lookup s.prog a) →
    runFor k (s.startPass nIn p) = .next t →
    ∃ t', runFor k (s'.startPass nIn p) = .next t' ∧ t'.out = t.out ∧ listing t' = listing t ∧ t'.st = t.st ∧
      t'.pc = t.pc ∧ t'.fault = t.fault

/-- O49. Rendering an address (40_decode_unit.md R100). -/
def Obligations.HexAddressReadsBack : Prop :=
  (∀ a : Nat, readDigits 16 (hex2 a).toList = some a ∧ 2 ≤ (hex2 a).toList.length ∧
    (a < 0x100 → (hex2 a).toList.length = 2) ∧ (0x100 ≤ a → (hex2 a).toList.head? ≠ some '0')) ∧
  hex2 0 = "00" ∧ hex2 10 = "0A" ∧ hex2 255 = "FF" ∧ hex2 256 = "100" ∧ hex2 0x1A3F = "1A3F"

/-- O50. Rendering a byte (40_decode_unit.md R101). -/
def Obligations.DecimalReadsBack : Prop :=
  (∀ v : Byte, readDigits 10 (dec v).toList = some v.toNat ∧ ((dec v).toList.head? = some '0' → v = 0)) ∧ dec 0 = "0"

/-- O51. The reason D9 gives for widening addresses (92_eei_decisions.md D9). -/
def Obligations.LinesOfDistinctAddressesDiffer : Prop :=
  ∀ d d' : DecodedInstr, d.addr ≠ d'.addr → line d ≠ line d'

/-- O52. DB is the listing form of a byte that is no defined opcode (30_encoding.md R71). -/
def Obligations.ListingNeverShowsADefinedOpcodeAsDb : Prop :=
  (∀ (addr : Nat) (op f1 f2 f3 v : Byte), definedOpcode op = true →
    text (romRecord addr op f1 f2 f3) ≠ "DB " ++ dec v) ∧
  (∀ (addr : Nat) (op f1 f2 f3 v : Byte), 1 ≤ v.toNat → v.toNat ≤ 11 →
    text (romRecord addr op f1 f2 f3) ≠ "DB " ++ dec v)

/-- O53. The alternative policy (40_decode_unit.md R104, 20_memory.md R54). Not this hardware's. -/
def Obligations.PadZeroAlternative : Prop :=
  (∀ (s : State) (op : Byte) (f : Nat → Byte), s.pc < s.n → Memory.lookup s.prog s.pc = some op →
    (∀ k, k < 4 → if k < (rom op).len.toNat ∧ s.pc + k < s.n then Memory.lookup s.prog (s.pc + k) = some (f k) else f k = 0) →
    padZeroStep s = .next { s with
      out := s.out ++ [{ addr := s.pc, op, cls := (rom op).cls, len := (rom op).len, f1 := f 1, f2 := f 2, f3 := f 3, k1 := (rom op).k1, k2 := (rom op).k2, k3 := (rom op).k3 }]
      pc := s.pc + (rom op).len.toNat } ∧
    s.pc + (rom op).len.toNat ≤ s.n + 3) ∧
  (∀ s : State, s.n ≤ s.pc → padZeroStep s = .next { s with st := .done })
end

