-- ==== Sys2Proof/Laws/Decode.lean ====
section
/-!
SUPPORT. The decode ROM, the length calculator and the decoder, split once into the eleven opcodes and the rest.
-/

namespace Sys2Proof

/-- Every opcode byte is one of the eleven, or has UNKNOWN's entry. -/
theorem opcode_cases (op : Byte) :
    op = 0x01 ∨ op = 0x02 ∨ op = 0x03 ∨ op = 0x04 ∨ op = 0x05 ∨ op = 0x06 ∨ op = 0x07 ∨ op = 0x08 ∨ op = 0x09 ∨
    op = 0x0A ∨ op = 0x0B ∨ (definedOpcode op = false ∧ rom op = ⟨.unknown, 1, .none, .none, .none⟩) := by
  revert op; decide

theorem lengthOf_eq_rom (op : Byte) : (lengthOf op).toNat = (rom op).len.toNat := by
  revert op; decide

theorem rom_len_pos (op : Byte) : 1 ≤ (rom op).len.toNat := by
  revert op; decide

theorem rom_len_le (op : Byte) : (rom op).len.toNat ≤ 4 := by
  revert op; decide

/-- An UNKNOWN payload has UNKNOWN's entry. -/
theorem rom_unknown {op : Byte} (h : definedOpcode op = false) : rom op = ⟨.unknown, 1, .none, .none, .none⟩ := by
  revert op; decide

theorem lengthOf_unknown {op : Byte} (h : definedOpcode op = false) : lengthOf op = 1 := by
  revert op; decide

/-- Everything the decoder can answer for a list that begins with `op`. -/
theorem decode_cases (op : Byte) (bs : List Byte) :
    (bs.length + 1 < (lengthOf op).toNat ∧
      decode (op :: bs) = .error (.truncated op (lengthOf op).toNat (bs.length + 1))) ∨
    ((lengthOf op).toNat ≤ bs.length + 1 ∧
      decode (op :: bs) =
        .ok (decodeOp op (bs.getD 0 0) (bs.getD 1 0) (bs.getD 2 0), bs.drop ((lengthOf op).toNat - 1))) := by
  unfold decode
  by_cases h : bs.length + 1 < (lengthOf op).toNat
  · exact .inl ⟨h, by simp [h]⟩
  · exact .inr ⟨Nat.le_of_not_lt h, by simp [h]⟩

end Sys2Proof
end

