-- ==== Sys2Proof/Laws/Memory.lean ====
section
/-!
SUPPORT. The program buffer: reading after writing, and the canonical form kept by every operation on it.
-/

namespace Sys2Proof.Machine

theorem Memory.lookup_write (m : Memory) (a : Nat) (b : Byte) (c : Nat) :
    Memory.lookup (Memory.write m a b) c = if a = c then some b else Memory.lookup m c := by
  induction m with
  | nil => rfl
  | cons e m ih =>
    obtain ⟨k, v⟩ := e
    simp only [Memory.write]
    split
    · rfl
    · split
      · subst a; simp only [Memory.lookup]; split <;> rfl
      · simp only [Memory.lookup, ih]
        split <;> split <;> first | rfl | omega

theorem Memory.mem_write {m : Memory} {a : Nat} {b : Byte} {e : Host.Cell} (h : e ∈ Memory.write m a b) :
    e.1 = a ∨ e ∈ m := by
  induction m with
  | nil => simp only [Memory.write, List.mem_singleton] at h; exact .inl (by rw [h])
  | cons x m ih =>
    obtain ⟨k, v⟩ := x
    simp only [Memory.write] at h
    split at h
    · rcases List.mem_cons.mp h with rfl | h
      · exact .inl rfl
      · exact .inr h
    · split at h
      · rcases List.mem_cons.mp h with rfl | h
        · exact .inl rfl
        · exact .inr (List.mem_cons_of_mem _ h)
      · rcases List.mem_cons.mp h with rfl | h
        · exact .inr List.mem_cons_self
        · exact (ih h).imp_right (List.mem_cons_of_mem _)

theorem Memory.write_wf {m : Memory} (h : Memory.wf m) (a : Nat) (b : Byte) : Memory.wf (Memory.write m a b) := by
  induction m with
  | nil => exact List.pairwise_singleton _ _
  | cons x m ih =>
    obtain ⟨k, v⟩ := x
    obtain ⟨hk, hm⟩ := List.pairwise_cons.mp h
    simp only [Memory.write]
    split
    · refine List.pairwise_cons.mpr ⟨fun e he => ?_, h⟩
      rcases List.mem_cons.mp he with rfl | he
      · assumption
      · have := hk e he; simp only at this ⊢; omega
    · split
      · subst a; exact List.pairwise_cons.mpr ⟨hk, hm⟩
      · refine List.pairwise_cons.mpr ⟨fun e he => ?_, ih hm⟩
        rcases Memory.mem_write he with h' | h'
        · simp only [h']; omega
        · exact hk e h'

theorem Memory.writeBytes_wf {m : Memory} (h : Memory.wf m) (a : Nat) (bs : List Byte) :
    Memory.wf (Memory.writeBytes m a bs) := by
  induction bs generalizing m a with
  | nil => exact h
  | cons b bs ih => exact ih (Memory.write_wf h a b) _

/-- Writing bytes from `a` on leaves every offset below `a` alone. -/
theorem Memory.lookup_writeBytes_below (m : Memory) {a c : Nat} (bs : List Byte) (h : c < a) :
    Memory.lookup (Memory.writeBytes m a bs) c = Memory.lookup m c := by
  induction bs generalizing m a with
  | nil => rfl
  | cons b bs ih => rw [Memory.writeBytes, ih _ (by omega), Memory.lookup_write, if_neg (by omega)]

theorem Memory.mem_ofBytes {a : Nat} {bs : List Byte} {e : Host.Cell} (h : e ∈ Memory.ofBytes a bs) : a ≤ e.1 := by
  induction bs generalizing a with
  | nil => cases h
  | cons b bs ih =>
    rcases List.mem_cons.mp h with rfl | h
    · exact Nat.le_refl _
    · exact Nat.le_of_succ_le (ih h)

theorem Memory.ofBytes_wf (a : Nat) (bs : List Byte) : Memory.wf (Memory.ofBytes a bs) := by
  induction bs generalizing a with
  | nil => exact List.Pairwise.nil
  | cons b bs ih => exact List.pairwise_cons.mpr ⟨fun _ he => Memory.mem_ofBytes he, ih _⟩

/-- Everything MemRead can answer. -/
theorem State.memRead_cases (s : State) (a : Nat) :
    (∃ b, a < s.n ∧ Memory.lookup s.prog a = some b ∧ s.memRead a = .ok b) ∨
    (a < s.n ∧ Memory.lookup s.prog a = none ∧ s.memRead a = .error (.programByteAbsent a)) ∨
    (s.n ≤ a ∧ s.memRead a = .error (.readPastEnd a)) := by
  unfold State.memRead
  by_cases h : a < s.n
  · cases hb : Memory.lookup s.prog a <;> simp [h]
  · exact .inr (.inr ⟨Nat.le_of_not_lt h, by simp [h]⟩)

theorem State.memRead_of_lookup {s : State} {a : Nat} {b : Byte} (h : a < s.n) (hb : Memory.lookup s.prog a = some b) :
    s.memRead a = .ok b := by
  simp [State.memRead, h, hb]

end Sys2Proof.Machine
end

