-- ==== Sys2Proof/Laws/State.lean ====
section
/-!
SUPPORT. One lemma per field per update of State, so that no later proof unfolds a record update.
-/

namespace Sys2Proof.Machine

@[simp] theorem State.retire_st (s : State) (d : DecodedInstr) : (s.retire d).st = s.st := rfl
@[simp] theorem State.retire_pc (s : State) (d : DecodedInstr) : (s.retire d).pc = s.pc + d.len.toNat := rfl
@[simp] theorem State.retire_n (s : State) (d : DecodedInstr) : (s.retire d).n = s.n := rfl
@[simp] theorem State.retire_fault (s : State) (d : DecodedInstr) : (s.retire d).fault = s.fault := rfl
@[simp] theorem State.retire_out (s : State) (d : DecodedInstr) : (s.retire d).out = s.out ++ [d] := rfl
@[simp] theorem State.retire_prog (s : State) (d : DecodedInstr) : (s.retire d).prog = s.prog := rfl
@[simp] theorem State.retire_turns (s : State) (d : DecodedInstr) : (s.retire d).turns = s.turns := rfl

@[simp] theorem State.stopPass_st (s : State) : s.stopPass.st = .done := rfl
@[simp] theorem State.stopPass_pc (s : State) : s.stopPass.pc = s.pc := rfl
@[simp] theorem State.stopPass_n (s : State) : s.stopPass.n = s.n := rfl
@[simp] theorem State.stopPass_fault (s : State) : s.stopPass.fault = s.fault := rfl
@[simp] theorem State.stopPass_out (s : State) : s.stopPass.out = s.out := rfl
@[simp] theorem State.stopPass_prog (s : State) : s.stopPass.prog = s.prog := rfl
@[simp] theorem State.stopPass_turns (s : State) : s.stopPass.turns = s.turns := rfl

@[simp] theorem State.takeTruncated_st (s : State) (op : Byte) (len : BitVec 3) : (s.takeTruncated op len).st = .fault := rfl
@[simp] theorem State.takeTruncated_pc (s : State) (op : Byte) (len : BitVec 3) : (s.takeTruncated op len).pc = s.pc := rfl
@[simp] theorem State.takeTruncated_n (s : State) (op : Byte) (len : BitVec 3) : (s.takeTruncated op len).n = s.n := rfl
@[simp] theorem State.takeTruncated_fault (s : State) (op : Byte) (len : BitVec 3) : (s.takeTruncated op len).fault = { fPc := s.pc, fOp := op, fLen := len, fAvail := s.n - s.pc } := rfl
@[simp] theorem State.takeTruncated_out (s : State) (op : Byte) (len : BitVec 3) : (s.takeTruncated op len).out = s.out := rfl
@[simp] theorem State.takeTruncated_prog (s : State) (op : Byte) (len : BitVec 3) : (s.takeTruncated op len).prog = s.prog := rfl
@[simp] theorem State.takeTruncated_turns (s : State) (op : Byte) (len : BitVec 3) : (s.takeTruncated op len).turns = s.turns := rfl

@[simp] theorem State.hostReset_st (s : State) : s.hostReset.st = .idle := rfl
@[simp] theorem State.hostReset_pc (s : State) : s.hostReset.pc = 0 := rfl
@[simp] theorem State.hostReset_n (s : State) : s.hostReset.n = 0 := rfl
@[simp] theorem State.hostReset_fault (s : State) : s.hostReset.fault = FaultRecord.zero := rfl
@[simp] theorem State.hostReset_out (s : State) : s.hostReset.out = [] := rfl
@[simp] theorem State.hostReset_prog (s : State) : s.hostReset.prog = s.prog := rfl
@[simp] theorem State.hostReset_turns (s : State) : s.hostReset.turns = s.turns := rfl

@[simp] theorem State.startPass_st (s : State) (nIn startPcIn : Nat) : (s.startPass nIn startPcIn).st = .run := rfl
@[simp] theorem State.startPass_pc (s : State) (nIn startPcIn : Nat) : (s.startPass nIn startPcIn).pc = startPcIn := rfl
@[simp] theorem State.startPass_n (s : State) (nIn startPcIn : Nat) : (s.startPass nIn startPcIn).n = nIn := rfl
@[simp] theorem State.startPass_fault (s : State) (nIn startPcIn : Nat) : (s.startPass nIn startPcIn).fault = FaultRecord.zero := rfl
@[simp] theorem State.startPass_out (s : State) (nIn startPcIn : Nat) : (s.startPass nIn startPcIn).out = [] := rfl
@[simp] theorem State.startPass_prog (s : State) (nIn startPcIn : Nat) : (s.startPass nIn startPcIn).prog = s.prog := rfl
@[simp] theorem State.startPass_turns (s : State) (nIn startPcIn : Nat) : (s.startPass nIn startPcIn).turns = s.turns := rfl

@[simp] theorem State.reset_st : State.reset.st = .idle := rfl
@[simp] theorem State.reset_pc : State.reset.pc = 0 := rfl
@[simp] theorem State.reset_n : State.reset.n = 0 := rfl
@[simp] theorem State.reset_fault : State.reset.fault = FaultRecord.zero := rfl
@[simp] theorem State.reset_out : State.reset.out = [] := rfl
@[simp] theorem State.reset_prog : State.reset.prog = [] := rfl
@[simp] theorem State.reset_turns : State.reset.turns = [] := rfl

end Sys2Proof.Machine
end

