-- ==== Sys2Proof/Laws/Ops.lean ====
section
/-!
SUPPORT. One lemma per shared operation that says everything it can do.
-/

namespace Sys2Proof.Machine

theorem State.isTruncated_iff (s : State) (len : BitVec 3) : s.isTruncated len = true ↔ s.n < s.pc + len.toNat := by
  simp [State.isTruncated]

/-- `completeDecode` takes the exception or retires the record; it never stops. -/
theorem completeDecode_cases (d : DecodedInstr) (s : State) :
    (s.n < s.pc + d.len.toNat ∧ completeDecode d s = .next (s.takeTruncated d.op d.len)) ∨
    (s.pc + d.len.toNat ≤ s.n ∧ completeDecode d s = .next (s.retire d)) := by
  unfold completeDecode State.isTruncated
  by_cases h : s.n < s.pc + d.len.toNat
  · exact .inl ⟨h, by simp [h]⟩
  · exact .inr ⟨Nat.le_of_not_lt h, by simp [h]⟩

/-- Every meaning is `completeDecode` of its rule's record. -/
theorem exec_eq_complete (i : Instr) (s : State) : exec i s = completeDecode (recordOf i s.pc) s := by
  cases i <;> rfl

@[simp] theorem recordOf_addr (i : Instr) (a : Nat) : (recordOf i a).addr = a := by cases i <;> rfl

/-- A start is a new pass or a refusal. -/
theorem hostStart_cases (nIn p : Nat) (s : State) :
    ((nIn ≤ Config.nMax ∧ p < 2 ^ Config.pcW) ∧ hostStart nIn p s = .next (s.startPass nIn p)) ∨
    (¬(nIn ≤ Config.nMax ∧ p < 2 ^ Config.pcW) ∧ hostStart nIn p s = .refused (.startOutOfBounds nIn p)) := by
  unfold hostStart
  by_cases h : nIn ≤ Config.nMax ∧ p < 2 ^ Config.pcW
  · exact .inl ⟨h, if_pos h⟩
  · exact .inr ⟨h, if_neg h⟩

/-- A placement is refused during RUN and changes the buffer alone otherwise. -/
theorem hostPlace_cases (bytes : List Byte) (s : State) :
    (s.st = .run ∧ hostPlace bytes s = .refused .programWriteDuringPass) ∨
    (s.st ≠ .run ∧ hostPlace bytes s = .next { s with prog := Memory.ofBytes 0 bytes }) := by
  unfold hostPlace
  cases h : s.st <;> simp

/-- An operand fetch that answers a byte answers the slot's byte. -/
theorem fetchOperand_ok {s : State} {len : BitVec 3} {k : Nat} {f : Byte} (h : s.fetchOperand len k = .ok f) :
    SlotHolds s.prog s.pc len k f := by
  unfold State.fetchOperand at h
  unfold SlotHolds
  split at h
  · rename_i hk
    rw [if_pos hk]
    rcases s.memRead_cases (s.pc + k) with ⟨b, _, hb, e⟩ | ⟨_, _, e⟩ | ⟨_, e⟩ <;> rw [e] at h <;> cases h
    exact hb
  · rename_i hk
    rw [if_neg hk]; cases h; rfl

/-- The slot's byte is fetched where the whole instruction lies in the buffer. -/
theorem fetchOperand_of_slot {s : State} {len : BitVec 3} {k : Nat} {f : Byte} (hn : s.pc + len.toNat ≤ s.n)
    (h : SlotHolds s.prog s.pc len k f) : s.fetchOperand len k = .ok f := by
  unfold SlotHolds at h
  unfold State.fetchOperand
  split at h
  · rename_i hk
    rw [if_pos hk]; exact State.memRead_of_lookup (by omega) h
  · rename_i hk
    rw [if_neg hk, h]

/-- An operand fetch within the buffer answers the slot's byte, or finds that the host placed none. -/
theorem fetchOperand_cases {s : State} {len : BitVec 3} (hn : s.pc + len.toNat ≤ s.n) (k : Nat) :
    (∃ f, SlotHolds s.prog s.pc len k f ∧ s.fetchOperand len k = .ok f) ∨
    (∃ a, a < s.n ∧ Memory.lookup s.prog a = none ∧ s.fetchOperand len k = .error (.programByteAbsent a)) := by
  cases h : s.fetchOperand len k with
  | ok f => exact .inl ⟨f, fetchOperand_ok h, rfl⟩
  | error e =>
    unfold State.fetchOperand at h
    split at h
    · rcases s.memRead_cases (s.pc + k) with ⟨b, _, _, e'⟩ | ⟨ha, hl, e'⟩ | ⟨hge, _⟩
      · rw [e'] at h; cases h
      · rw [e'] at h; cases h; exact .inr ⟨_, ha, hl, rfl⟩
      · omega
    · cases h

/-- Everything a fetch can answer. -/
theorem fetch_cases (s : State) :
    (s.n ≤ s.pc ∧ s.fetch = .ok .stop) ∨
    (∃ op, s.pc < s.n ∧ Memory.lookup s.prog s.pc = some op ∧ s.n < s.pc + (rom op).len.toNat ∧
      s.fetch = .ok (.truncated op)) ∨
    (∃ op f1 f2 f3, s.pc < s.n ∧ Memory.lookup s.prog s.pc = some op ∧ s.pc + (rom op).len.toNat ≤ s.n ∧
      SlotHolds s.prog s.pc (rom op).len 1 f1 ∧ SlotHolds s.prog s.pc (rom op).len 2 f2 ∧
      SlotHolds s.prog s.pc (rom op).len 3 f3 ∧ s.fetch = .ok (.instr (decodeOp op f1 f2 f3))) ∨
    (∃ a, a < s.n ∧ Memory.lookup s.prog a = none ∧ s.fetch = .error (.programByteAbsent a)) := by
  unfold State.fetch
  by_cases hpc : s.n ≤ s.pc
  · exact .inl ⟨hpc, by simp [hpc]⟩
  have hpc' : s.pc < s.n := Nat.lt_of_not_le hpc
  rcases s.memRead_cases s.pc with ⟨op, _, hop, eop⟩ | ⟨ha, hl, e⟩ | ⟨h, _⟩
  · by_cases ht : s.isTruncated (rom op).len = true
    · exact .inr (.inl ⟨op, hpc', hop, (s.isTruncated_iff _).mp ht,
        by simp [hpc, eop, ht, bind, Except.bind, pure, Except.pure]⟩)
    have hn : s.pc + (rom op).len.toNat ≤ s.n := by rw [State.isTruncated_iff] at ht; omega
    rcases fetchOperand_cases hn 1 with ⟨f1, h1, e1⟩ | ⟨a, ha, hl, e⟩
    · rcases fetchOperand_cases hn 2 with ⟨f2, h2, e2⟩ | ⟨a, ha, hl, e⟩
      · rcases fetchOperand_cases hn 3 with ⟨f3, h3, e3⟩ | ⟨a, ha, hl, e⟩
        · exact .inr (.inr (.inl ⟨op, f1, f2, f3, hpc', hop, hn, h1, h2, h3,
            by simp [hpc, eop, ht, e1, e2, e3, bind, Except.bind, pure, Except.pure]⟩))
        · exact .inr (.inr (.inr ⟨a, ha, hl, by simp [hpc, eop, ht, e1, e2, e, bind, Except.bind]⟩))
      · exact .inr (.inr (.inr ⟨a, ha, hl, by simp [hpc, eop, ht, e1, e, bind, Except.bind]⟩))
    · exact .inr (.inr (.inr ⟨a, ha, hl, by simp [hpc, eop, ht, e, bind, Except.bind]⟩))
  · exact .inr (.inr (.inr ⟨_, ha, hl, by simp [hpc, e, bind, Except.bind]⟩))
  · omega

/-- Whatever the operand bytes, the record of a decoded instruction has the ROM entry's class, length and kinds. -/
theorem recordOf_decodeOp_fixed (op f1 f2 f3 : Byte) (addr : Nat) :
    (recordOf (decodeOp op f1 f2 f3) addr).op = op ∧ (recordOf (decodeOp op f1 f2 f3) addr).cls = (rom op).cls ∧
    (recordOf (decodeOp op f1 f2 f3) addr).len = (rom op).len ∧ (recordOf (decodeOp op f1 f2 f3) addr).k1 = (rom op).k1 ∧
    (recordOf (decodeOp op f1 f2 f3) addr).k2 = (rom op).k2 ∧ (recordOf (decodeOp op f1 f2 f3) addr).k3 = (rom op).k3 := by
  rcases opcode_cases op with rfl | rfl | rfl | rfl | rfl | rfl | rfl | rfl | rfl | rfl | rfl | ⟨_, hr⟩
  case inr.inr.inr.inr.inr.inr.inr.inr.inr.inr.inr => simp [decodeOp, hr, recordOf, recordO]
  all_goals exact ⟨rfl, rfl, rfl, rfl, rfl, rfl⟩

/-- The decoder's instruction has the ROM's record: what the two descriptions of one decode agree on. -/
theorem recordOf_decodeOp {m : Memory} {a : Nat} {op f1 f2 f3 : Byte} (h1 : SlotHolds m a (rom op).len 1 f1)
    (h2 : SlotHolds m a (rom op).len 2 f2) (h3 : SlotHolds m a (rom op).len 3 f3) (addr : Nat) :
    recordOf (decodeOp op f1 f2 f3) addr = romRecord addr op f1 f2 f3 := by
  unfold SlotHolds at h1 h2 h3
  rcases opcode_cases op with rfl | rfl | rfl | rfl | rfl | rfl | rfl | rfl | rfl | rfl | rfl | ⟨_, hr⟩
  case inr.inr.inr.inr.inr.inr.inr.inr.inr.inr.inr =>
    simp [hr] at h1 h2 h3
    simp [decodeOp, hr, recordOf, romRecord, recordO, h1, h2, h3]
  all_goals
    simp [rom] at h1 h2 h3
    simp [decodeOp, rom, recordOf, romRecord, recordR, recordI, recordRI, recordRR, recordRIR, recordIRR, recordRRR, *]

end Sys2Proof.Machine
end

