-- ==== Sys2Proof/Laws/PerInstr.lean ====
section
/-!
SUPPORT. Facts about the syntax of every instruction, one lemma per constructor. Family `EncodingShape`: the encoding is as long as
the length calculator says of its own first byte, and that byte selects the instruction's class (30_encoding.md R61, R62).
-/

namespace Sys2Proof.Laws.EncodingShape

/-- The class of an instruction. -/
def classOf : Instr → Cls
  | .loadImm _ _ => .loadImm
  | .loadAddr _ _ _ => .loadAddr
  | .storeAddr _ _ _ => .storeAddr
  | .add _ _ _ => .add
  | .mod _ _ _ => .mod
  | .xor _ _ _ => .xor
  | .inc _ => .inc
  | .cmp _ _ => .cmp
  | .jmp _ => .jmp
  | .jnz _ => .jnz
  | .loadInd _ _ => .loadInd
  | .unknown _ => .unknown

/-- What the family says of an instruction. -/
def Statement (i : Instr) : Prop :=
  i.wf = true → ∃ op operands, encode i = op :: operands ∧ (encode i).length = (lengthOf op).toNat ∧
    (rom op).cls = classOf i

theorem loadImm (r : RegIndex) (imm : Imm) : Statement (.loadImm r imm) :=
  fun _ => ⟨0x01, [r, imm], rfl, rfl, rfl⟩

theorem loadAddr (r : RegIndex) (imm : Imm) (base : RegIndex) : Statement (.loadAddr r imm base) :=
  fun _ => ⟨0x02, [r, imm, base], rfl, rfl, rfl⟩

theorem storeAddr (off : Imm) (base src : RegIndex) : Statement (.storeAddr off base src) :=
  fun _ => ⟨0x03, [off, base, src], rfl, rfl, rfl⟩

theorem add (r1 r2 rd : RegIndex) : Statement (.add r1 r2 rd) :=
  fun _ => ⟨0x04, [r1, r2, rd], rfl, rfl, rfl⟩

theorem mod (r : RegIndex) (imm : Imm) (rd : RegIndex) : Statement (.mod r imm rd) :=
  fun _ => ⟨0x05, [r, imm, rd], rfl, rfl, rfl⟩

theorem xor (r1 r2 rd : RegIndex) : Statement (.xor r1 r2 rd) :=
  fun _ => ⟨0x06, [r1, r2, rd], rfl, rfl, rfl⟩

theorem inc (r : RegIndex) : Statement (.inc r) :=
  fun _ => ⟨0x07, [r], rfl, rfl, rfl⟩

theorem cmp (r : RegIndex) (imm : Imm) : Statement (.cmp r imm) :=
  fun _ => ⟨0x08, [r, imm], rfl, rfl, rfl⟩

theorem jmp (imm : Imm) : Statement (.jmp imm) :=
  fun _ => ⟨0x09, [imm], rfl, rfl, rfl⟩

theorem jnz (imm : Imm) : Statement (.jnz imm) :=
  fun _ => ⟨0x0A, [imm], rfl, rfl, rfl⟩

theorem loadInd (rd rs : RegIndex) : Statement (.loadInd rd rs) :=
  fun _ => ⟨0x0B, [rd, rs], rfl, rfl, rfl⟩

theorem unknown (op : Byte) : Statement (.unknown op) := by
  intro h
  have h : definedOpcode op = false := by simpa [Instr.wf] using h
  exact ⟨op, [], rfl, by simp [encode, lengthOf_unknown h], by simp [classOf, rom_unknown h]⟩

end Sys2Proof.Laws.EncodingShape
end

