-- ==== Sys2Proof/Laws/Run.lean ====
section
/-!
SUPPORT. Runs: `runFor` is the host's own run of the machine.
-/

namespace Sys2Proof.Machine

theorem coreRun_of_next {M : Host.Core} {k : Nat} {s t : M.State} (h : M.step s = .next t) : M.run (k + 1) s = M.run k t := by
  rw [Host.Core.run.eq_def]; simp only [h]

theorem coreRun_of_fault {M : Host.Core} {k : Nat} {s : M.State} {f : M.Fault} (h : M.step s = .fault f) :
    M.run (k + 1) s = .fault f := by
  rw [Host.Core.run.eq_def]; simp only [h]

theorem coreRun_of_refused {M : Host.Core} {k : Nat} {s : M.State} {r : M.Refusal} (h : M.step s = .refused r) :
    M.run (k + 1) s = .refused r := by
  rw [Host.Core.run.eq_def]; simp only [h]

theorem runFor_of_next {k : Nat} {s t : State} (h : step s = .next t) : runFor (k + 1) s = runFor k t := by
  rw [runFor, h]

theorem runFor_of_fault {k : Nat} {s : State} {f : Fault} (h : step s = .fault f) : runFor (k + 1) s = .fault f := by
  rw [runFor, h]

theorem runFor_of_refused {k : Nat} {s : State} {r : Refusal} (h : step s = .refused r) : runFor (k + 1) s = .refused r := by
  rw [runFor, h]

/-- A run that reaches a next state after `k + 1` steps takes one step and then `k`. -/
theorem runFor_succ_next {k : Nat} {s t : State} (h : runFor (k + 1) s = .next t) : ∃ u, step s = .next u ∧ runFor k u = .next t := by
  cases e : step s with
  | next u => exact ⟨u, rfl, by rwa [runFor_of_next e] at h⟩
  | fault f => rw [runFor_of_fault e] at h; cases h
  | refused r => rw [runFor_of_refused e] at h; cases h

theorem runFor_eq_core_run (k : Nat) (s : State) : runFor k s = Host.Core.run Sys2Proof.core k s := by
  induction k generalizing s with
  | zero => rfl
  | succ k ih =>
    cases e : step s with
    | next t => exact (runFor_of_next e).trans ((ih t).trans (coreRun_of_next (M := Sys2Proof.core) e).symm)
    | fault f => exact (runFor_of_fault e).trans (coreRun_of_fault (M := Sys2Proof.core) e).symm
    | refused r => exact (runFor_of_refused e).trans (coreRun_of_refused (M := Sys2Proof.core) e).symm

end Sys2Proof.Machine
end

