-- ==== Sys2Proof/Laws/Step.lean ====
section
/-!
SUPPORT. What a step can do, said once.
-/

namespace Sys2Proof.Machine

theorem step_of_no_turns {s : State} (h : s.turns = []) : step s = blockStep s := by
  simp [step, h]

/-- Everything the block's own step can answer. -/
theorem blockStep_cases (s : State) :
    (s.st ≠ .run ∧ blockStep s = .next s) ∨
    (s.st = .run ∧ s.n ≤ s.pc ∧ blockStep s = .next s.stopPass) ∨
    (∃ op, s.st = .run ∧ s.pc < s.n ∧ Memory.lookup s.prog s.pc = some op ∧ s.n < s.pc + (rom op).len.toNat ∧
      blockStep s = .next (s.takeTruncated op (rom op).len)) ∨
    (∃ op f1 f2 f3, s.st = .run ∧ s.pc < s.n ∧ Memory.lookup s.prog s.pc = some op ∧
      s.pc + (rom op).len.toNat ≤ s.n ∧ SlotHolds s.prog s.pc (rom op).len 1 f1 ∧
      SlotHolds s.prog s.pc (rom op).len 2 f2 ∧ SlotHolds s.prog s.pc (rom op).len 3 f3 ∧
      blockStep s = .next (s.retire (romRecord s.pc op f1 f2 f3))) ∨
    (∃ a, s.st = .run ∧ a < s.n ∧ Memory.lookup s.prog a = none ∧ blockStep s = .fault (.programByteAbsent a)) := by
  by_cases hr : s.st = .run
  · rcases fetch_cases s with ⟨h, e⟩ | ⟨op, h1, h2, h3, e⟩ | ⟨op, f1, f2, f3, h1, h2, h3, s1, s2, s3, e⟩ | ⟨a, h1, h2, e⟩
    · exact .inr (.inl ⟨hr, h, by simp [blockStep, hr, e]⟩)
    · exact .inr (.inr (.inl ⟨op, hr, h1, h2, h3, by simp [blockStep, hr, e]⟩))
    · refine .inr (.inr (.inr (.inl ⟨op, f1, f2, f3, hr, h1, h2, h3, s1, s2, s3, ?_⟩)))
      have hc : blockStep s = exec (decodeOp op f1 f2 f3) s := by simp [blockStep, hr, e]
      rw [hc, exec_eq_complete, recordOf_decodeOp s1 s2 s3]
      rcases completeDecode_cases (romRecord s.pc op f1 f2 f3) s with ⟨h, _⟩ | ⟨_, h⟩
      · simp only [romRecord] at h; omega
      · exact h
    · exact .inr (.inr (.inr (.inr ⟨a, hr, h1, h2, by simp [blockStep, hr, e]⟩)))
  · exact .inl ⟨hr, by unfold blockStep; cases h : s.st <;> simp_all⟩

/-- Everything a step that answers a next state has done: the block's own step, a reset, a start within its bounds, or a placement
outside RUN. -/
theorem step_next_cases {s t : State} (h : step s = .next t) :
    (∃ ts, (s.turns = [] ∧ ts = [] ∨ s.turns = .block :: ts) ∧ blockStep { s with turns := ts } = .next t) ∨
    (∃ ts, s.turns = .reset :: ts ∧ t = ({ s with turns := ts } : State).hostReset) ∨
    (∃ nIn p ts, s.turns = .start nIn p :: ts ∧ nIn ≤ Config.nMax ∧ p < 2 ^ Config.pcW ∧
      t = ({ s with turns := ts } : State).startPass nIn p) ∨
    (∃ bytes ts, s.turns = .place bytes :: ts ∧ s.st ≠ .run ∧
      t = { s with prog := Memory.ofBytes 0 bytes, turns := ts }) := by
  unfold step at h
  split at h
  · rename_i ht
    exact .inl ⟨[], .inl ⟨ht, rfl⟩, by rw [← ht]; exact h⟩
  · rename_i ts ht
    exact .inl ⟨ts, .inr ht, h⟩
  · rename_i ts ht
    cases h; exact .inr (.inl ⟨ts, ht, rfl⟩)
  · rename_i nIn p ts ht
    rcases hostStart_cases nIn p { s with turns := ts } with ⟨⟨h1, h2⟩, e⟩ | ⟨_, e⟩ <;> rw [e] at h <;> cases h
    exact .inr (.inr (.inl ⟨nIn, p, ts, ht, h1, h2, rfl⟩))
  · rename_i bytes ts ht
    rcases hostPlace_cases bytes { s with turns := ts } with ⟨_, e⟩ | ⟨hr, e⟩ <;> rw [e] at h <;> cases h
    exact .inr (.inr (.inr ⟨bytes, ts, ht, hr, rfl⟩))

end Sys2Proof.Machine
end

