-- ==== Sys2Proof/Tests/Slice0.lean ====
section
/-!
SUPPORT. The model's own tests. Expected results are the spec's: 95_test_vectors.md, the encoding patterns of files 41 to 44, and
hand calculation from the rules named. Then one witness for each statement that has hypotheses.
-/

namespace Sys2Proof.Tests

open Sys2Proof.Machine

/-- A pass in progress over the given bytes, at the given `pc`. -/
def pass (bytes : List Byte) (pc : Nat) : State :=
  { State.reset with st := .run, n := bytes.length, pc := pc, prog := Memory.ofBytes 0 bytes }

/-- The answer is a next state with the given property. -/
def answers (o : Result) (p : State → Bool) : Bool :=
  match o with
  | .next t => p t
  | .fault _ => false
  | .refused _ => false

/-- What 95_test_vectors.md gives of an end: the listing, `st`, `pc` and the fault record. -/
def shows (lines : List String) (st : PassState) (pc : Nat) (f : FaultRecord) (t : State) : Bool :=
  decide (listing t = lines ∧ t.st = st ∧ t.pc = pc ∧ t.fault = f)

/-! ### Well-formedness: the one check refuses its ill-formed terms (R140) -/

theorem test_wf_refuses_lowest_defined_opcode : (Instr.unknown 0x01).wf = false := by decide
theorem test_wf_refuses_highest_defined_opcode : (Instr.unknown 0x0B).wf = false := by decide
theorem test_wf_accepts_neighbours : (Instr.unknown 0x00).wf = true ∧ (Instr.unknown 0x0C).wf = true := by decide

/-! ### Decoding: a word of each row, bit by bit from the row's encoding (files 41 to 44) -/

theorem test_decode_loadImm : decodeTableWord 24 0b11111111_00000011_00000001 = some (.loadImm 0x03 0xFF) := by decide
theorem test_decode_loadAddr : decodeTableWord 32 0b00000010_00010000_00000001_00000010 = some (.loadAddr 0x01 0x10 0x02) := by decide
theorem test_decode_storeAddr : decodeTableWord 32 0b00000001_00000001_11111111_00000011 = some (.storeAddr 0xFF 0x01 0x01) := by decide
theorem test_decode_add : decodeTableWord 32 0b00000011_00000010_00000001_00000100 = some (.add 0x01 0x02 0x03) := by decide
theorem test_decode_mod : decodeTableWord 32 0b00000010_00000000_00000001_00000101 = some (.mod 0x01 0x00 0x02) := by decide
theorem test_decode_xor : decodeTableWord 32 0b00000000_00000000_00000000_00000110 = some (.xor 0x00 0x00 0x00) := by decide
theorem test_decode_inc : decodeTableWord 16 0b11111111_00000111 = some (.inc 0xFF) := by decide
theorem test_decode_cmp : decodeTableWord 24 0b00000101_00000001_00001000 = some (.cmp 0x01 0x05) := by decide
theorem test_decode_jmp : decodeTableWord 16 0b11111111_00001001 = some (.jmp 0xFF) := by decide
theorem test_decode_jnz : decodeTableWord 16 0b00000110_00001010 = some (.jnz 0x06) := by decide
theorem test_decode_loadInd : decodeTableWord 24 0b00001000_00000111_00001011 = some (.loadInd 0x07 0x08) := by decide
theorem test_decode_unknown : decodeTableWord 8 0b00001100 = some (.unknown 0x0C) := by decide
theorem test_decode_zero_fill : decodeTableWord 8 0b00000100 = some (.add 0x00 0x00 0x00) := by decide
theorem test_decode_names_truncation : decode [0x02, 0x01, 0x02] = .error (.truncated 0x02 4 3) := by rfl

/-! ### One step of each instruction, whole and truncated (95_test_vectors.md 2.2 to 2.5); each shows a state that meets the
hypotheses of the instruction's statement -/

theorem test_loadImm_completes : (pass [0x01, 0x03, 0xFF] 0).pc + 3 ≤ (pass [0x01, 0x03, 0xFF] 0).n ∧
    answers (exec (.loadImm 0x03 0xFF) (pass [0x01, 0x03, 0xFF] 0)) (shows ["00: LOAD_IMM R3, 255"] .run 3 FaultRecord.zero) = true ∧
    answers (step (pass [0x01, 0x03, 0xFF] 0)) (shows ["00: LOAD_IMM R3, 255"] .run 3 FaultRecord.zero) = true := by decide
theorem test_loadImm_truncated : (pass [0x01, 0x05] 0).n - (pass [0x01, 0x05] 0).pc = 2 ∧
    answers (exec (.loadImm 0x03 0xFF) (pass [0x01, 0x05] 0)) (shows [] .fault 0 ⟨0, 0x01, 3, 2⟩) = true ∧
    answers (step (pass [0x01, 0x05] 0)) (shows [] .fault 0 ⟨0, 0x01, 3, 2⟩) = true := by decide
theorem test_loadAddr_completes : (pass [0x02, 0x01, 0x10, 0x02] 0).pc + 4 ≤ (pass [0x02, 0x01, 0x10, 0x02] 0).n ∧
    answers (exec (.loadAddr 0x01 0x10 0x02) (pass [0x02, 0x01, 0x10, 0x02] 0)) (shows ["00: LOAD_ADDR R1, 16, R2"] .run 4 FaultRecord.zero) = true ∧
    answers (step (pass [0x02, 0x01, 0x10, 0x02] 0)) (shows ["00: LOAD_ADDR R1, 16, R2"] .run 4 FaultRecord.zero) = true := by decide
theorem test_loadAddr_truncated : (pass [0x02, 0x01, 0x02] 0).n - (pass [0x02, 0x01, 0x02] 0).pc = 3 ∧
    answers (exec (.loadAddr 0x01 0x10 0x02) (pass [0x02, 0x01, 0x02] 0)) (shows [] .fault 0 ⟨0, 0x02, 4, 3⟩) = true ∧
    answers (step (pass [0x02, 0x01, 0x02] 0)) (shows [] .fault 0 ⟨0, 0x02, 4, 3⟩) = true := by decide
theorem test_storeAddr_completes : (pass [0x03, 0xFF, 0x01, 0x01] 0).pc + 4 ≤ (pass [0x03, 0xFF, 0x01, 0x01] 0).n ∧
    answers (exec (.storeAddr 0xFF 0x01 0x01) (pass [0x03, 0xFF, 0x01, 0x01] 0)) (shows ["00: STORE_ADDR 255, R1, R1"] .run 4 FaultRecord.zero) = true ∧
    answers (step (pass [0x03, 0xFF, 0x01, 0x01] 0)) (shows ["00: STORE_ADDR 255, R1, R1"] .run 4 FaultRecord.zero) = true := by decide
theorem test_storeAddr_truncated : (pass [0x03, 0x04] 0).n - (pass [0x03, 0x04] 0).pc = 2 ∧
    answers (exec (.storeAddr 0xFF 0x01 0x01) (pass [0x03, 0x04] 0)) (shows [] .fault 0 ⟨0, 0x03, 4, 2⟩) = true ∧
    answers (step (pass [0x03, 0x04] 0)) (shows [] .fault 0 ⟨0, 0x03, 4, 2⟩) = true := by decide
theorem test_add_completes : (pass [0x04, 0x01, 0x02, 0x03] 0).pc + 4 ≤ (pass [0x04, 0x01, 0x02, 0x03] 0).n ∧
    answers (exec (.add 0x01 0x02 0x03) (pass [0x04, 0x01, 0x02, 0x03] 0)) (shows ["00: ADD R1, R2, R3"] .run 4 FaultRecord.zero) = true ∧
    answers (step (pass [0x04, 0x01, 0x02, 0x03] 0)) (shows ["00: ADD R1, R2, R3"] .run 4 FaultRecord.zero) = true := by decide
theorem test_add_truncated : (pass [0x04] 0).n - (pass [0x04] 0).pc = 1 ∧
    answers (exec (.add 0x01 0x02 0x03) (pass [0x04] 0)) (shows [] .fault 0 ⟨0, 0x04, 4, 1⟩) = true ∧
    answers (step (pass [0x04] 0)) (shows [] .fault 0 ⟨0, 0x04, 4, 1⟩) = true := by decide
theorem test_mod_completes : (pass [0x05, 0x01, 0x00, 0x02] 0).pc + 4 ≤ (pass [0x05, 0x01, 0x00, 0x02] 0).n ∧
    answers (exec (.mod 0x01 0x00 0x02) (pass [0x05, 0x01, 0x00, 0x02] 0)) (shows ["00: MOD R1, 0, R2"] .run 4 FaultRecord.zero) = true ∧
    answers (step (pass [0x05, 0x01, 0x00, 0x02] 0)) (shows ["00: MOD R1, 0, R2"] .run 4 FaultRecord.zero) = true := by decide
theorem test_mod_truncated : (pass [0x05, 0x01, 0x00] 0).n - (pass [0x05, 0x01, 0x00] 0).pc = 3 ∧
    answers (exec (.mod 0x01 0x00 0x02) (pass [0x05, 0x01, 0x00] 0)) (shows [] .fault 0 ⟨0, 0x05, 4, 3⟩) = true ∧
    answers (step (pass [0x05, 0x01, 0x00] 0)) (shows [] .fault 0 ⟨0, 0x05, 4, 3⟩) = true := by decide
theorem test_xor_completes : (pass [0x06, 0x00, 0x00, 0x00] 0).pc + 4 ≤ (pass [0x06, 0x00, 0x00, 0x00] 0).n ∧
    answers (exec (.xor 0x00 0x00 0x00) (pass [0x06, 0x00, 0x00, 0x00] 0)) (shows ["00: XOR R0, R0, R0"] .run 4 FaultRecord.zero) = true ∧
    answers (step (pass [0x06, 0x00, 0x00, 0x00] 0)) (shows ["00: XOR R0, R0, R0"] .run 4 FaultRecord.zero) = true := by decide
theorem test_xor_truncated : (pass [0x06, 0x00, 0x00] 0).n - (pass [0x06, 0x00, 0x00] 0).pc = 3 ∧
    answers (exec (.xor 0x00 0x00 0x00) (pass [0x06, 0x00, 0x00] 0)) (shows [] .fault 0 ⟨0, 0x06, 4, 3⟩) = true ∧
    answers (step (pass [0x06, 0x00, 0x00] 0)) (shows [] .fault 0 ⟨0, 0x06, 4, 3⟩) = true := by decide
theorem test_inc_completes : (pass [0x07, 0xFF] 0).pc + 2 ≤ (pass [0x07, 0xFF] 0).n ∧
    answers (exec (.inc 0xFF) (pass [0x07, 0xFF] 0)) (shows ["00: INC R255"] .run 2 FaultRecord.zero) = true ∧
    answers (step (pass [0x07, 0xFF] 0)) (shows ["00: INC R255"] .run 2 FaultRecord.zero) = true := by decide
theorem test_inc_truncated : (pass [0x07] 0).n - (pass [0x07] 0).pc = 1 ∧
    answers (exec (.inc 0xFF) (pass [0x07] 0)) (shows [] .fault 0 ⟨0, 0x07, 2, 1⟩) = true ∧
    answers (step (pass [0x07] 0)) (shows [] .fault 0 ⟨0, 0x07, 2, 1⟩) = true := by decide
theorem test_cmp_completes : (pass [0x08, 0x01, 0x05] 0).pc + 3 ≤ (pass [0x08, 0x01, 0x05] 0).n ∧
    answers (exec (.cmp 0x01 0x05) (pass [0x08, 0x01, 0x05] 0)) (shows ["00: CMP R1, 5"] .run 3 FaultRecord.zero) = true ∧
    answers (step (pass [0x08, 0x01, 0x05] 0)) (shows ["00: CMP R1, 5"] .run 3 FaultRecord.zero) = true := by decide
theorem test_cmp_truncated : (pass [0x08, 0x01] 0).n - (pass [0x08, 0x01] 0).pc = 2 ∧
    answers (exec (.cmp 0x01 0x05) (pass [0x08, 0x01] 0)) (shows [] .fault 0 ⟨0, 0x08, 3, 2⟩) = true ∧
    answers (step (pass [0x08, 0x01] 0)) (shows [] .fault 0 ⟨0, 0x08, 3, 2⟩) = true := by decide
theorem test_jmp_completes : (pass [0x09, 0xFF] 0).pc + 2 ≤ (pass [0x09, 0xFF] 0).n ∧
    answers (exec (.jmp 0xFF) (pass [0x09, 0xFF] 0)) (shows ["00: JMP 255"] .run 2 FaultRecord.zero) = true ∧
    answers (step (pass [0x09, 0xFF] 0)) (shows ["00: JMP 255"] .run 2 FaultRecord.zero) = true := by decide
theorem test_jmp_truncated : (pass [0x09] 0).n - (pass [0x09] 0).pc = 1 ∧
    answers (exec (.jmp 0xFF) (pass [0x09] 0)) (shows [] .fault 0 ⟨0, 0x09, 2, 1⟩) = true ∧
    answers (step (pass [0x09] 0)) (shows [] .fault 0 ⟨0, 0x09, 2, 1⟩) = true := by decide
theorem test_jnz_completes : (pass [0x0A, 0x06] 0).pc + 2 ≤ (pass [0x0A, 0x06] 0).n ∧
    answers (exec (.jnz 0x06) (pass [0x0A, 0x06] 0)) (shows ["00: JNZ 6"] .run 2 FaultRecord.zero) = true ∧
    answers (step (pass [0x0A, 0x06] 0)) (shows ["00: JNZ 6"] .run 2 FaultRecord.zero) = true := by decide
theorem test_jnz_truncated : (pass [0x0A] 0).n - (pass [0x0A] 0).pc = 1 ∧
    answers (exec (.jnz 0x06) (pass [0x0A] 0)) (shows [] .fault 0 ⟨0, 0x0A, 2, 1⟩) = true ∧
    answers (step (pass [0x0A] 0)) (shows [] .fault 0 ⟨0, 0x0A, 2, 1⟩) = true := by decide
theorem test_loadInd_completes : (pass [0x0B, 0x07, 0x08] 0).pc + 3 ≤ (pass [0x0B, 0x07, 0x08] 0).n ∧
    answers (exec (.loadInd 0x07 0x08) (pass [0x0B, 0x07, 0x08] 0)) (shows ["00: LOAD_IND R7, R8"] .run 3 FaultRecord.zero) = true ∧
    answers (step (pass [0x0B, 0x07, 0x08] 0)) (shows ["00: LOAD_IND R7, R8"] .run 3 FaultRecord.zero) = true := by decide
theorem test_loadInd_truncated : (pass [0x0B, 0x07] 0).n - (pass [0x0B, 0x07] 0).pc = 2 ∧
    answers (exec (.loadInd 0x07 0x08) (pass [0x0B, 0x07] 0)) (shows [] .fault 0 ⟨0, 0x0B, 3, 2⟩) = true ∧
    answers (step (pass [0x0B, 0x07] 0)) (shows [] .fault 0 ⟨0, 0x0B, 3, 2⟩) = true := by decide
theorem test_unknown_completes : definedOpcode 0x0C = false ∧ (pass [0x0C] 0).pc < (pass [0x0C] 0).n ∧
    answers (exec (.unknown 0x0C) (pass [0x0C] 0)) (shows ["00: DB 12"] .run 1 FaultRecord.zero) = true := by decide
theorem test_unknown_does_not_stop : answers (step (pass [0xFF, 0x07, 0x01] 0))
    (shows ["00: DB 255"] .run 1 FaultRecord.zero) = true := by decide

/-! ### Records, passes and rendering -/

/-- 95_test_vectors.md 2.2, the record for `02 01 10 02`. -/
theorem test_record_of_loadAddr : answers (step (pass [0x02, 0x01, 0x10, 0x02] 0)) (fun t => decide (t.out =
    [⟨0, 0x02, .loadAddr, 4, 0x01, 0x10, 0x02, .reg, .imm, .reg⟩])) = true := by decide
/-- 95_test_vectors.md 2.6: the empty buffer. -/
theorem test_empty_buffer_is_done : answers (step (pass [] 0)) (shows [] .done 0 FaultRecord.zero) = true := by decide
/-- 95_test_vectors.md 2.6: START_PC beyond N. -/
theorem test_start_beyond_end_is_done : answers (step (pass [0x01, 0x02, 0x03] 9)) (shows [] .done 9 FaultRecord.zero) = true := by
  decide
/-- 95_test_vectors.md 3.3: the truncated tail of Program C. -/
theorem test_truncated_tail : answers (step (pass [0x0C, 0x07, 0x01, 0x00, 0x04, 0x01, 0x02] 4))
    (shows [] .fault 4 ⟨4, 0x04, 4, 3⟩) = true := by decide
/-- 95_test_vectors.md 2.6: the same tail under PadZero. -/
theorem test_padZero_tail : answers (padZeroStep (pass [0x0C, 0x07, 0x01, 0x00, 0x04, 0x01, 0x02] 4))
    (shows ["04: ADD R1, R2, R0"] .run 8 FaultRecord.zero) = true := by decide
/-- 95_test_vectors.md 2.7. -/
theorem test_hex2_widens : hex2 0x1C = "1C" ∧ hex2 256 = "100" := by decide
/-- R170: reset in the middle of a pass. -/
theorem test_reset_abandons_a_pass : answers (step { pass [0x07, 0x02] 1 with turns := [.reset, .block] })
    (fun t => decide (t = { State.reset with prog := Memory.ofBytes 0 [0x07, 0x02], turns := [.block] })) = true := by decide
/-- R23, R24, R30, R32: the status port after a truncated ADD (95_test_vectors.md 3.3; `n_reg` as in log 18). -/
theorem test_status_after_fault : answers (step (pass [0x0C, 0x07, 0x01, 0x00, 0x04, 0x01, 0x02] 4))
    (fun t => decide (t.status = { st := 0b11, pc := 4, fPc := 4, fOp := 0x04, fLen := 4, fAvail := 3, nReg := 7 })) = true := by
  decide
/-- The first step after reset with a word placed runs it. -/
theorem test_fetch_word_after_reset : answers (step (State.reset.withFetchWord 16 0x0207))
    (shows ["00: INC R2"] .run 2 FaultRecord.zero) = true := by decide

/-! ### Witnesses: for each statement with hypotheses, a concrete state and operands that meet them together. Those of the
instruction statements and of ExecFrame's clauses are the theorems above. -/

theorem programmed_pass : Programmed (pass [0x07, 0x02, 0x04] 0) := by
  intro a h
  have h : a < 3 := h
  interval_cases a <;> exact ⟨_, rfl⟩

theorem witness_DecodeOfEncode : (Instr.unknown 0x0C).wf = true ∧ (Instr.jmp 0xFF).wf = true := by decide
theorem witness_EncodeOfDecode : decode [0x07, 0x02, 0x09] = .ok (.inc 0x02, [0x09]) := by rfl
theorem witness_LengthCalculator : (0x06 : Byte) ∈ ([0x02, 0x03, 0x04, 0x05, 0x06] : List Byte) ∧
    (0x0B : Byte) ∈ ([0x01, 0x08, 0x0B] : List Byte) ∧ (0x0A : Byte) ∈ ([0x07, 0x09, 0x0A] : List Byte) ∧
    (0x0C : Byte) ∉ ([0x01, 0x02, 0x03, 0x04, 0x05, 0x06, 0x07, 0x08, 0x09, 0x0A, 0x0B] : List Byte) := by decide
theorem witness_StepRunsTheDecodedInstruction : (pass [0x07, 0x02] 0).st = .run ∧
    BytesAt (pass [0x07, 0x02] 0).prog 0 [0x07, 0x02] ∧ 0 + 2 ≤ (pass [0x07, 0x02] 0).n ∧
    decode [0x07, 0x02] = .ok (.inc 0x02, []) ∧ (pass [0x07, 0x02] 0).turns = [] :=
  ⟨rfl, ⟨rfl, rfl, trivial⟩, by decide, rfl, rfl⟩
theorem witness_StepRunsTheDecodedInstruction_turn :
    ({ pass [0x07, 0x02] 0 with turns := [.block, .reset] } : State).turns = .block :: [.reset] := rfl
theorem witness_FetchWord : decodeTableWord 16 0x0207 = some (.inc 0x02) := by decide
theorem witness_Running : Running (pass [0x07, 0x02] 0) ∧ Running (pass [0x07] 0) ∧ Running (pass [] 0) := by decide
theorem witness_DecodeUnit_agrees : let s := pass [0x07, 0x02] 0
    ({ s with st := .done } : State).prog = s.prog ∧ ({ s with st := .done } : State).n = s.n ∧
    ({ s with st := .done } : State).pc = s.pc := by decide
theorem witness_StopTest : Running (pass [0x00] 1) ∧ (pass [0x00] 1).n ≤ (pass [0x00] 1).pc ∧ State.reset.turns = [] := by decide
theorem witness_Truncated : Running (pass [0x04, 0x01, 0x02] 0) ∧ Memory.lookup (pass [0x04, 0x01, 0x02] 0).prog 0 = some 0x04 ∧
    (pass [0x04, 0x01, 0x02] 0).n < 0 + (rom 0x04).len.toNat ∧
    answers (step (pass [0x04, 0x01, 0x02] 0)) (fun t => t.st = .fault) = true := by decide
theorem witness_WholeInstruction : 0 + (rom 0x08).len.toNat ≤ (pass [0x08, 0x01, 0x05] 0).n ∧
    Memory.lookup (pass [0x08, 0x01, 0x05] 0).prog 0 = some 0x08 ∧
    SlotHolds (pass [0x08, 0x01, 0x05] 0).prog 0 (rom 0x08).len 1 0x01 ∧
    SlotHolds (pass [0x08, 0x01, 0x05] 0).prog 0 (rom 0x08).len 2 0x05 ∧
    SlotHolds (pass [0x08, 0x01, 0x05] 0).prog 0 (rom 0x08).len 3 0 := by
  unfold SlotHolds; decide
theorem witness_OutsideRun : State.reset.st = .idle ∧ ({ pass [] 0 with st := .done } : State).st = .done ∧
    ({ pass [] 0 with st := .fault } : State).st = .fault ∧ State.reset.turns = [] := by decide
theorem witness_PcMoves : Running (pass [0x07, 0x02] 0) ∧ answers (step (pass [0x07, 0x02] 0)) (fun t => t.pc = 2) = true ∧
    answers (step (pass [0x07, 0x02] 2)) (fun t => t.pc = 2) = true := by decide
theorem witness_OnlyTruncation : Running (pass [0x07, 0x02, 0x04] 0) ∧ Programmed (pass [0x07, 0x02, 0x04] 0) :=
  ⟨by decide, programmed_pass⟩
theorem witness_UnknownBytes : Running (pass [0xFF, 0x07] 0) ∧ Memory.lookup (pass [0xFF, 0x07] 0).prog 0 = some 0xFF ∧
    definedOpcode 0xFF = false ∧ answers (step (pass [] 0)) (fun t => t.st ≠ .run) = true := by decide
theorem witness_RecordDependsOnlyOnItsOwnBytes : let s := pass [0x07, 0x02, 0x04] 0
    let s' := pass [0x07, 0x02, 0xFF, 0xFF] 0
    Running s ∧ Running s' ∧ s'.pc = s.pc ∧ Memory.lookup s.prog s.pc = some 0x07 ∧ s.pc + 2 ≤ s.n ∧ s.pc + 2 ≤ s'.n ∧
    (∀ a, a < 2 → Memory.lookup s'.prog a = Memory.lookup s.prog a) ∧ answers (step s) (fun _ => true) = true := by decide
theorem witness_PlacedProgram : ({ State.reset with turns := [.place [0x07]] } : State).turns = .place [0x07] :: [] ∧
    State.reset.st ≠ .run ∧ (pass [] 0).st = .run := by decide
theorem witness_Start : 0 ≤ Config.nMax ∧ 0 < 2 ^ Config.pcW ∧ State.reset.turns = [] :=
  ⟨Nat.zero_le _, Nat.two_pow_pos _, rfl⟩
theorem witness_Start_refused : answers (hostStart (Config.nMax + 1) 0 State.reset) (fun _ => true) = false := by
  have h : ¬(Config.nMax + 1 ≤ Config.nMax ∧ 0 < 2 ^ Config.pcW) := fun h => by omega
  rw [hostStart, if_neg h]; rfl
theorem witness_HostTurns : ({ State.reset with turns := [.start 0 0] } : State).turns = .start 0 0 :: [] ∧
    ({ State.reset with turns := [.reset] } : State).turns = .reset :: [] := by decide
theorem witness_LeavesAnEndedPass : Ended ({ pass [] 0 with st := .done, turns := [.reset] } : State) ∧
    answers (step { pass [] 0 with st := .done, turns := [.reset] }) (fun t => t.st ≠ .done) = true :=
  ⟨.inl rfl, by decide⟩
theorem witness_FaultRecord : (pass [0x07] 0).turns = [] ∧ (pass [0x07] 0).st ≠ .fault ∧
    answers (step (pass [0x07] 0)) (fun t => t.fault ≠ FaultRecord.zero ∧ t.st = .fault) = true := by decide

/-- A pass after its first record: what the pass invariant is about. -/
def midPass : State := { pass [0x07, 0x02, 0x04] 2 with out := [⟨0, 0x07, .inc, 2, 0x02, 0, 0, .reg, .none, .none⟩] }

theorem witness_PassInv : PassInv midPass ∧ answers (step midPass) (fun t => t.st = .fault) = true :=
  ⟨{ progWf := by decide
     recordsOk := by simp [midPass, RecordOk, romRecord, rom]
     recordsAbut := rfl
     pcWithin := fun _ => by decide
     recordsShow := fun _ => by
       intro d hd
       simp only [midPass, List.mem_singleton] at hd
       subst hd
       exact ⟨rfl, rfl, rfl, rfl⟩
     idle := fun h => by cases h
     done := fun h => by cases h
     noFault := fun _ => rfl
     inFault := fun h => by cases h }, by decide⟩
theorem witness_BoundsInv : BoundsInv (pass [] 0) ∧ answers (step (pass [] 0)) (fun t => t.st = .done) = true :=
  ⟨⟨Nat.zero_le _, Nat.two_pow_pos _, Nat.two_pow_pos _, Nat.two_pow_pos _, fun _ h => by cases h⟩, by decide⟩
theorem witness_EveryPassTerminates : Running (pass [0x07, 0x02, 0x04] 0) ∧ (pass [0x07, 0x02, 0x04] 0).out = [] ∧
    Programmed (pass [0x07, 0x02, 0x04] 0) ∧ answers (step (pass [0x07, 0x02, 0x04] 0)) (fun t => t.out ≠ []) = true :=
  ⟨by decide, rfl, programmed_pass, by decide⟩
theorem witness_PassAccounts : Running (pass [0x00] 0) ∧ (pass [0x00] 0).out = [] ∧
    answers (runFor 2 (pass [0x00] 0)) (fun t => t.st = .done) = true ∧
    answers (runFor 1 (pass [0x07] 0)) (fun t => t.st = .fault) = true := by decide
theorem witness_PassDependsOnlyOnItsInputs : let s := pass [0x07, 0x02, 0x04] 2
    let s' := { State.reset with prog := Memory.ofBytes 0 [0x07, 0x02] }
    s.turns = [] ∧ s'.turns = [] ∧ (∀ a, a < 2 → Memory.lookup s'.prog a = Memory.lookup s.prog a) ∧
    answers (runFor 1 (s.startPass 2 0)) (fun t => t.out ≠ []) = true := by decide
theorem witness_Lines : (romRecord 0 0xFF 0 0 0).addr ≠ (romRecord 1 0xFF 0 0 0).addr := by decide
theorem witness_ListingDb : definedOpcode 0x01 = true ∧ 1 ≤ (0x0B : Byte).toNat ∧ (0x0B : Byte).toNat ≤ 11 := by decide
theorem witness_PadZero : let s := pass [0x04, 0x01, 0x02] 0
    let f : Nat → Byte := fun k => if k = 0 then 0x04 else if k = 1 then 0x01 else if k = 2 then 0x02 else 0x00
    s.pc < s.n ∧ Memory.lookup s.prog s.pc = some 0x04 ∧
    (∀ k, k < 4 → if k < (rom 0x04).len.toNat ∧ s.pc + k < s.n then Memory.lookup s.prog (s.pc + k) = some (f k) else f k = 0) ∧
    (pass [] 0).n ≤ (pass [] 0).pc := by decide

end Sys2Proof.Tests
end

section
/-!
SUPPORT. The moves of the machine, as an induction principle for invariants: what the block's own step can do, constructor by
constructor, and the one lemma that lifts an invariant from the moves to `step`.
-/

namespace Sys2Proof.Machine

@[simp] theorem romRecord_addr (a : Nat) (op f1 f2 f3 : Byte) : (romRecord a op f1 f2 f3).addr = a := rfl
@[simp] theorem romRecord_op (a : Nat) (op f1 f2 f3 : Byte) : (romRecord a op f1 f2 f3).op = op := rfl
@[simp] theorem romRecord_len (a : Nat) (op f1 f2 f3 : Byte) : (romRecord a op f1 f2 f3).len = (rom op).len := rfl

/-- The record's length is that of the encoding, for UNKNOWN with any payload too (R61, R62). -/
theorem recordOf_len (i : Instr) (a : Nat) : (recordOf i a).len.toNat = (encode i).length := by cases i <;> rfl

/-- The next states of the block's own step, one constructor per way it can go (R90 to R95, R150). -/
inductive BlockMove (s : State) : State → Prop where
  /-- Outside RUN the state is held (R90). -/
  | hold (notRun : s.st ≠ .run) : BlockMove s s
  /-- The stop test holds (R91). -/
  | stop (run : s.st = .run) (atEnd : s.n ≤ s.pc) : BlockMove s s.stopPass
  /-- The instruction at `pc` runs past the end (R93). -/
  | truncate (op : Byte) (run : s.st = .run) (before : s.pc < s.n) (byteAt : Memory.lookup s.prog s.pc = some op)
      (short : s.n < s.pc + (rom op).len.toNat) : BlockMove s (s.takeTruncated op (rom op).len)
  /-- A whole instruction stands at `pc` (R94, R95). -/
  | emit (op f1 f2 f3 : Byte) (run : s.st = .run) (fits : s.pc + (rom op).len.toNat ≤ s.n)
      (shows : RecordShows s.prog (romRecord s.pc op f1 f2 f3)) : BlockMove s (s.retire (romRecord s.pc op f1 f2 f3))

/-- The block's own step makes one of the block's moves. -/
theorem blockMove_of_next {s t : State} (h : blockStep s = .next t) : BlockMove s t := by
  rcases blockStep_cases s with ⟨hr, e⟩ | ⟨hr, hend, e⟩ | ⟨op, hr, hlt, hop, hshort, e⟩ |
      ⟨op, f1, f2, f3, hr, _, hop, hfits, h1, h2, h3, e⟩ | ⟨a, _, _, _, e⟩ <;> rw [e] at h <;> cases h
  · exact .hold hr
  · exact .stop hr hend
  · exact .truncate op hr hlt hop hshort
  · exact .emit op f1 f2 f3 hr hfits ⟨hop, h1, h2, h3⟩

/-- With no host turn waiting, a step is a move of the block. -/
theorem blockMove_of_step {s t : State} (hts : s.turns = []) (h : step s = .next t) : BlockMove s t :=
  blockMove_of_next (step_of_no_turns hts ▸ h)

/-- What every move of the block and of the host keeps, every step keeps, if it does not speak of the host's turns. -/
theorem step_keeps {I : State → Prop} (turns : ∀ s ts, I s → I { s with turns := ts })
    (block : ∀ s t, I s → BlockMove s t → I t) (reset : ∀ s, I s → I s.hostReset)
    (start : ∀ s nIn p, I s → nIn ≤ Config.nMax → p < 2 ^ Config.pcW → I (s.startPass nIn p))
    (place : ∀ s bytes, I s → s.st ≠ .run → I { s with prog := Memory.ofBytes 0 bytes })
    {s t : State} (hs : I s) (h : step s = .next t) : I t := by
  rcases step_next_cases h with ⟨ts, _, hb⟩ | ⟨ts, _, rfl⟩ | ⟨nIn, p, ts, _, hn, hp, rfl⟩ | ⟨bytes, ts, _, hr, rfl⟩
  · exact block _ _ (turns s ts hs) (blockMove_of_next hb)
  · exact reset _ (turns s ts hs)
  · exact start _ nIn p (turns s ts hs) hn hp
  · exact place { s with turns := ts } bytes (turns s ts hs) hr

end Sys2Proof.Machine
end

section
/-!
SUPPORT. The invariant of a pass, move by move (10_state.md R23, R24, R31, 20_memory.md R45).
-/

namespace Sys2Proof.Machine

theorem SlotHolds.eq_zero {m : Memory} {a : Nat} {len : BitVec 3} {k : Nat} {f : Byte} (h : SlotHolds m a len k f)
    (hk : len.toNat ≤ k) : f = 0 := by
  rwa [SlotHolds, if_neg (Nat.not_lt.mpr hk)] at h

/-- A ROM record that shows the buffer's bytes has 0 in the slots its instruction lacks (R94). -/
theorem RecordShows.recordOk {m : Memory} {a : Nat} {op f1 f2 f3 : Byte} (h : RecordShows m (romRecord a op f1 f2 f3)) :
    RecordOk (romRecord a op f1 f2 f3) := by
  obtain ⟨_, h1, h2, h3⟩ := h
  exact ⟨rfl, h1.eq_zero, h2.eq_zero, h3.eq_zero⟩

/-- A record that starts where the others end extends them to its own end (R45). -/
theorem Abut.snoc {d : DecodedInstr} {e : Nat} (hd : d.addr = e) :
    ∀ {ds : List DecodedInstr}, Abut ds e → Abut (ds ++ [d]) (e + d.len.toNat)
  | [], _ => by rw [← hd]; exact rfl
  | [_], hlast => ⟨hlast.trans hd.symm, by rw [← hd]; exact rfl⟩
  | _ :: _ :: _, ⟨hnext, hrest⟩ => ⟨hnext, Abut.snoc hd hrest⟩

theorem PassInv.withTurns {s : State} (h : PassInv s) (ts : List HostTurn) : PassInv { s with turns := ts } :=
  { h with }

theorem PassInv.stopPass {s : State} (h : PassInv s) (run : s.st = .run) (atEnd : s.n ≤ s.pc) : PassInv s.stopPass :=
  { h with
    recordsShow := nofun
    idle := nofun
    done := fun _ => atEnd
    noFault := fun _ => h.noFault (by simp [run])
    inFault := nofun }

theorem PassInv.takeTruncated {s : State} (h : PassInv s) {op : Byte} (before : s.pc < s.n)
    (short : s.n < s.pc + (rom op).len.toNat) : PassInv (s.takeTruncated op (rom op).len) :=
  { h with
    recordsShow := nofun
    idle := nofun
    done := nofun
    noFault := fun hne => absurd rfl hne
    inFault := fun _ => ⟨rfl, rfl, rfl, show 1 ≤ s.n - s.pc ∧ s.n - s.pc < (rom op).len.toNat by omega⟩ }

theorem PassInv.retire {s : State} (h : PassInv s) {op f1 f2 f3 : Byte} (run : s.st = .run)
    (fits : s.pc + (rom op).len.toNat ≤ s.n) (shows : RecordShows s.prog (romRecord s.pc op f1 f2 f3)) :
    PassInv (s.retire (romRecord s.pc op f1 f2 f3)) where
  progWf := h.progWf
  recordsOk := List.forall_mem_append.mpr ⟨h.recordsOk, List.forall_mem_singleton.mpr shows.recordOk⟩
  recordsAbut := h.recordsAbut.snoc rfl
  pcWithin := fun _ => fits
  recordsShow := fun _ => List.forall_mem_append.mpr ⟨h.recordsShow run, List.forall_mem_singleton.mpr shows⟩
  idle := fun hidle => by simp [run] at hidle
  done := fun hdone => by simp [run] at hdone
  noFault := h.noFault
  inFault := fun hfault => by simp [run] at hfault

/-- The invariant of a state with no record and a clear fault record, in IDLE or RUN: the two ways the host begins anew. -/
theorem PassInv.of_no_records {s : State} (progWf : Memory.wf s.prog) (out : s.out = []) (fault : s.fault = FaultRecord.zero)
    (st : s.st = .run ∨ s.st = .idle ∧ s.pc = 0 ∧ s.n = 0) : PassInv s where
  progWf := progWf
  recordsOk := by simp [out]
  recordsAbut := by rw [out]; trivial
  pcWithin := fun hne => absurd out hne
  recordsShow := by simp [out]
  idle := fun hidle => by simpa [hidle, out] using st
  done := fun hdone => by simp [hdone] at st
  noFault := fun _ => fault
  inFault := fun hfault => by simp [hfault] at st

theorem PassInv.hostReset {s : State} (h : PassInv s) : PassInv s.hostReset :=
  .of_no_records h.progWf rfl rfl (.inr ⟨rfl, rfl, rfl⟩)

theorem PassInv.startPass {s : State} (h : PassInv s) (nIn p : Nat) : PassInv (s.startPass nIn p) :=
  .of_no_records h.progWf rfl rfl (.inl rfl)

/-- Outside RUN no claim ties the records to the buffer, so the host may replace it (R52, R174). -/
theorem PassInv.place {s : State} (h : PassInv s) (notRun : s.st ≠ .run) (bytes : List Byte) :
    PassInv { s with prog := Memory.ofBytes 0 bytes } :=
  { h with
    progWf := Memory.ofBytes_wf 0 bytes
    recordsShow := fun run => absurd run notRun }

theorem BlockMove.keeps_passInv {s t : State} (h : PassInv s) (move : BlockMove s t) : PassInv t := by
  cases move with
  | hold => exact h
  | stop run atEnd => exact h.stopPass run atEnd
  | truncate op _ before _ short => exact h.takeTruncated before short
  | emit op f1 f2 f3 run fits shows => exact h.retire run fits shows

/-- Settles O44: each move of the block and of the host keeps the invariant. -/
theorem everyStepKeepsThePassInvariant : Obligations.EveryStepKeepsThePassInvariant := by
  intro s t hs h
  exact step_keeps (fun _ ts h => h.withTurns ts) (fun _ _ => BlockMove.keeps_passInv) (fun _ h => h.hostReset)
    (fun _ nIn p h _ _ => h.startPass nIn p) (fun _ bytes h hr => h.place hr bytes) hs h

end Sys2Proof.Machine
end

section
/-!
SUPPORT. The bounds of the `PC_W` registers, move by move (00_scope.md R6, 10_state.md R21).
-/

namespace Sys2Proof.Machine

/-- Whatever is at most N fits in `PC_W` bits (R6). -/
theorem BoundsInv.lt_of_le_n {s : State} (h : BoundsInv s) {a : Nat} (ha : a ≤ s.n) : a < 2 ^ Config.pcW := by
  have := h.n
  have := Config.nMax_fits
  omega

theorem BoundsInv.takeTruncated {s : State} (h : BoundsInv s) (op : Byte) (len : BitVec 3) :
    BoundsInv (s.takeTruncated op len) :=
  { h with
    fPc := h.pc
    fAvail := h.lt_of_le_n (Nat.sub_le _ _) }

theorem BoundsInv.retire {s : State} (h : BoundsInv s) {d : DecodedInstr} (at_pc : d.addr = s.pc)
    (fits : s.pc + d.len.toNat ≤ s.n) : BoundsInv (s.retire d) :=
  { h with
    pc := h.lt_of_le_n fits
    addrs := List.forall_mem_append.mpr ⟨h.addrs, List.forall_mem_singleton.mpr (at_pc ▸ h.pc)⟩ }

/-- The bounds of a state with no record and a clear fault record are those of N and `pc`. -/
theorem BoundsInv.of_no_records {s : State} (out : s.out = []) (fault : s.fault = FaultRecord.zero)
    (n : s.n ≤ Config.nMax) (pc : s.pc < 2 ^ Config.pcW) : BoundsInv s where
  n := n
  pc := pc
  fPc := by rw [fault]; exact Nat.two_pow_pos _
  fAvail := by rw [fault]; exact Nat.two_pow_pos _
  addrs := by simp [out]

theorem BoundsInv.hostReset (s : State) : BoundsInv s.hostReset :=
  .of_no_records rfl rfl (Nat.zero_le _) (Nat.two_pow_pos _)

theorem BlockMove.keeps_boundsInv {s t : State} (h : BoundsInv s) (move : BlockMove s t) : BoundsInv t := by
  cases move with
  | hold => exact h
  | stop => exact { h with }
  | truncate op => exact h.takeTruncated op _
  | emit op f1 f2 f3 _ fits => exact h.retire rfl fits

/-- Settles O45: `pc` moves only up to N, and a start loads a `pc` within its bounds. -/
theorem everyStepKeepsTheBounds : Obligations.EveryStepKeepsTheBounds := by
  intro s t hs h
  exact step_keeps (fun _ _ h => { h with }) (fun _ _ => BlockMove.keeps_boundsInv) (fun s _ => .hostReset s)
    (fun _ _ _ _ hn hp => .of_no_records rfl rfl hn hp) (fun _ _ h _ => { h with }) hs h

/-- Settles O43: nothing is placed at reset, so the buffer is canonical, and every register is 0. -/
theorem resetMeetsTheInvariants : Obligations.ResetMeetsTheInvariants :=
  ⟨.of_no_records .nil rfl rfl (.inr ⟨rfl, rfl, rfl⟩), .hostReset State.reset⟩

end Sys2Proof.Machine
end

section
/-!
SUPPORT. What the block's moves and the instructions leave alone (10_state.md R20, R24, R27, R31).
-/

namespace Sys2Proof.Machine

/-- Settles O28: of the moves in RUN only `emit` writes `pc` and the output. -/
theorem pcMovesOnlyByTheEmittedLength : Obligations.PcMovesOnlyByTheEmittedLength := by
  intro s t ⟨run, hts⟩ h
  cases blockMove_of_step hts h with
  | hold notRun => exact absurd run notRun
  | stop => exact .inl ⟨rfl, rfl⟩
  | truncate => exact .inl ⟨rfl, rfl⟩
  | emit op f1 f2 f3 _ _ shows =>
    obtain ⟨byteAt, _⟩ := shows
    exact .inr ⟨romRecord s.pc op f1 f2 f3, rfl, rfl, byteAt, rfl, rfl⟩

/-- Settles O31: only `emit` writes the output, and it appends its record. -/
theorem emittedRecordsStay : Obligations.EmittedRecordsStay := by
  intro s t hts h
  cases blockMove_of_step hts h with
  | hold => exact ⟨[], by simp⟩
  | stop => exact ⟨[], by simp⟩
  | truncate => exact ⟨[], by simp⟩
  | emit op f1 f2 f3 => exact ⟨[romRecord s.pc op f1 f2 f3], rfl, Nat.le_refl 1⟩

/-- The fault record that R24 gives an instruction truncated at `pc`. -/
def FaultDescribes (s : State) (f : FaultRecord) : Prop :=
  f.fPc = s.pc ∧ Memory.lookup s.prog s.pc = some f.fOp ∧ f.fLen = (rom f.fOp).len ∧ f.fAvail = s.n - s.pc ∧
  1 ≤ f.fAvail ∧ f.fAvail < f.fLen.toNat

/-- A move of the block keeps the fault record and does not enter FAULT, or is the fault entry of a running step (R155). -/
theorem BlockMove.fault_cases {s t : State} (move : BlockMove s t) :
    (t.fault = s.fault ∧ (t.st = .fault → s.st = .fault)) ∨
    (s.st = .run ∧ t.st = .fault ∧ FaultDescribes s t.fault) := by
  cases move with
  | hold => exact .inl ⟨rfl, id⟩
  | stop => exact .inl ⟨rfl, nofun⟩
  | truncate op run before byteAt short =>
    have avail : 1 ≤ s.n - s.pc ∧ s.n - s.pc < (rom op).len.toNat := by omega
    exact .inr ⟨run, rfl, rfl, byteAt, rfl, rfl, avail⟩
  | emit => exact .inl ⟨rfl, id⟩

/-- Settles O41: the fault entry alone writes the fault record; reset and start clear it. -/
theorem faultRecordIsWrittenOnlyOnEntry : Obligations.FaultRecordIsWrittenOnlyOnEntry := by
  refine ⟨fun s t hts h changed => ?_, fun s t hts h notFault entered => ?_, fun _ => rfl, fun _ _ _ => rfl⟩
  · rcases (blockMove_of_step hts h).fault_cases with ⟨same, _⟩ | entry
    · exact absurd same changed
    · exact entry
  · rcases (blockMove_of_step hts h).fault_cases with ⟨_, stays⟩ | ⟨_, _, hpc, hop, hlen, havail, _⟩
    · exact absurd (stays entered) notFault
    · exact ⟨hpc, hop, hlen, havail⟩

/-- Settles O19: every meaning is `completeDecode` of its record, which is as long as the encoding. -/
theorem execFrame : Obligations.ExecFrame := by
  intro i s
  rw [exec_eq_complete, ← recordOf_len i s.pc]
  rcases completeDecode_cases (recordOf i s.pc) s with ⟨short, e⟩ | ⟨fits, e⟩
  · exact ⟨_, e, fun _ => rfl, rfl, rfl, rfl, fun fits => absurd short (Nat.not_lt.mpr fits), fun _ => ⟨rfl, rfl, rfl⟩⟩
  · exact ⟨_, e, fun _ => rfl, rfl, rfl, rfl,
      fun _ => ⟨rfl, rfl, rfl, recordOf i s.pc, rfl, recordOf_addr i s.pc, rfl⟩,
      fun short => absurd short (Nat.not_lt.mpr fits)⟩

end Sys2Proof.Machine
end

section
/-!
SUPPORT. The program buffer as the block uses it: read below N only, never written (20_memory.md R40, R43).
-/

namespace Sys2Proof.Machine

/-- MemRead's domain (R40), and log 5's: below N, where the host holds a byte. -/
theorem State.memRead_eq_ok_iff {s : State} {a : Nat} {b : Byte} :
    s.memRead a = .ok b ↔ a < s.n ∧ Memory.lookup s.prog a = some b := by
  refine ⟨fun h => ?_, fun ⟨hlt, hb⟩ => State.memRead_of_lookup hlt hb⟩
  rcases s.memRead_cases a with ⟨b', hlt, hb, e⟩ | ⟨_, _, e⟩ | ⟨_, e⟩ <;> rw [e] at h <;> cases h
  exact ⟨hlt, hb⟩

/-- The block's own step stops only at a byte below N that the host has not placed. -/
theorem blockStep_fault {s : State} {f : Fault} (h : blockStep s = .fault f) :
    ∃ a, s.st = .run ∧ a < s.n ∧ Memory.lookup s.prog a = none ∧ f = .programByteAbsent a := by
  rcases blockStep_cases s with ⟨_, e⟩ | ⟨_, _, e⟩ | ⟨_, _, _, _, _, e⟩ | ⟨_, _, _, _, _, _, _, _, _, _, _, e⟩ |
      ⟨a, run, below, absent, e⟩ <;> rw [e] at h <;> cases h
  exact ⟨a, run, below, absent, rfl⟩

/-- So does every step: a host turn is taken or refused, and raises no fault. -/
theorem step_fault {s : State} {f : Fault} (h : step s = .fault f) :
    ∃ a, s.st = .run ∧ a < s.n ∧ Memory.lookup s.prog a = none ∧ f = .programByteAbsent a := by
  unfold step at h
  split at h
  case h_1 => exact blockStep_fault h
  case h_2 ts _ => exact blockStep_fault (s := { s with turns := ts }) h
  case h_3 => cases h
  case h_4 nIn p ts _ =>
    rcases hostStart_cases nIn p { s with turns := ts } with ⟨_, e⟩ | ⟨_, e⟩ <;> rw [e] at h <;> cases h
  case h_5 bytes ts _ =>
    rcases hostPlace_cases bytes { s with turns := ts } with ⟨_, e⟩ | ⟨_, e⟩ <;> rw [e] at h <;> cases h

/-- Settles O32: MemRead's domain, and a step's only fault is `programByteAbsent`, at an offset below N. -/
theorem noStepReadsPastTheEnd : Obligations.NoStepReadsPastTheEnd := by
  refine ⟨fun _ _ _ => State.memRead_eq_ok_iff, fun s a h => ?_⟩
  obtain ⟨_, _, _, _, e⟩ := step_fault h
  cases e

/-- No move of the block writes the buffer (R43). -/
theorem BlockMove.prog {s t : State} (move : BlockMove s t) : t.prog = s.prog := by
  cases move with
  | hold => rfl
  | stop => exact s.stopPass_prog
  | truncate op => exact s.takeTruncated_prog op _
  | emit op f1 f2 f3 => exact s.retire_prog _

/-- Settles O33: a step with no host turn waiting is a move of the block. -/
theorem blockNeverWritesMemory : Obligations.BlockNeverWritesMemory := by
  intro s t hts h
  have same : t.prog = s.prog := (blockMove_of_step hts h).prog
  exact ⟨same, fun a => by rw [same]⟩

end Sys2Proof.Machine
end

section
/-!
SUPPORT. The decoder against the encoder (30_encoding.md R60 to R69): the bytes a decoded instruction encodes to, and the
instruction an encoding decodes to.
-/

namespace Sys2Proof

/-- Where the length of the first byte is present, the decoder answers. -/
theorem decode_of_fits {op : Byte} {bs : List Byte} (fits : (lengthOf op).toNat ≤ bs.length + 1) :
    decode (op :: bs) =
      .ok (decodeOp op (bs.getD 0 0) (bs.getD 1 0) (bs.getD 2 0), bs.drop ((lengthOf op).toNat - 1)) := by
  rcases decode_cases op bs with ⟨short, _⟩ | ⟨_, answer⟩
  · exact absurd short (Nat.not_lt.mpr fits)
  · exact answer

theorem lengthOf_le (op : Byte) : (lengthOf op).toNat ≤ 4 :=
  lengthOf_eq_rom op ▸ rom_len_le op

theorem decodeOp_unknown {op : Byte} (h : definedOpcode op = false) (f1 f2 f3 : Byte) :
    decodeOp op f1 f2 f3 = .unknown op := by
  simp [decodeOp, rom_unknown h]

/-- The slots an instruction encodes are the first ones, as many as its opcode's length leaves for operands (R61, R62). -/
theorem encode_decodeOp (op f1 f2 f3 : Byte) :
    encode (decodeOp op f1 f2 f3) = op :: [f1, f2, f3].take ((lengthOf op).toNat - 1) := by
  rcases opcode_cases op with rfl | rfl | rfl | rfl | rfl | rfl | rfl | rfl | rfl | rfl | rfl | ⟨h, _⟩
  case inr.inr.inr.inr.inr.inr.inr.inr.inr.inr.inr => rw [decodeOp_unknown h, lengthOf_unknown h]; rfl
  all_goals rfl

/-- The decoder makes UNKNOWN of no defined opcode (R67). -/
theorem decodeOp_wf (op f1 f2 f3 : Byte) : (decodeOp op f1 f2 f3).wf = true := by
  rcases opcode_cases op with rfl | rfl | rfl | rfl | rfl | rfl | rfl | rfl | rfl | rfl | rfl | ⟨h, _⟩
  case inr.inr.inr.inr.inr.inr.inr.inr.inr.inr.inr => rw [decodeOp_unknown h, Instr.wf, h]; rfl
  all_goals rfl

/-- Of the decoder's three slots, those whose bytes are present hold these bytes. -/
theorem take_slots : ∀ {k : Nat} {bs : List Byte}, k ≤ 3 → k ≤ bs.length →
    [bs.getD 0 0, bs.getD 1 0, bs.getD 2 0].take k = bs.take k
  | 0, _, _, _ => rfl
  | 1, _ :: _, _, _ => rfl
  | 2, _ :: _ :: _, _, _ => rfl
  | 3, _ :: _ :: _ :: _, _, _ => rfl

/-- Settles O1, by the length class of the instruction's opcode (R62). -/
theorem decodeOfEncodeIsTheInstruction : Obligations.DecodeOfEncodeIsTheInstruction := by
  intro i rest wf
  cases i with
  | unknown op =>
    have undefined : definedOpcode op = false := by simpa [Instr.wf] using wf
    simp [encode, decode, lengthOf_unknown undefined, decodeOp_unknown undefined]
  | inc | jmp | jnz => exact decode_of_fits (Nat.le_add_left 2 _)
  | loadImm | cmp | loadInd => exact decode_of_fits (Nat.le_add_left 3 _)
  | loadAddr | storeAddr | add | mod | xor => exact decode_of_fits (Nat.le_add_left 4 _)

/-- Settles O2: the decoder takes as many bytes as the encoder gives back. -/
theorem encodeOfDecodeGivesTheBytes : Obligations.EncodeOfDecodeGivesTheBytes := by
  intro bs i rest h
  cases bs with
  | nil => cases h
  | cons op bs =>
    rcases decode_cases op bs with ⟨_, answer⟩ | ⟨fits, answer⟩ <;> rw [answer] at h <;> cases h
    have slots : (lengthOf op).toNat - 1 ≤ 3 := Nat.sub_le_sub_right (lengthOf_le op) 1
    have present : (lengthOf op).toNat - 1 ≤ bs.length := Nat.sub_le_of_le_add fits
    refine ⟨decodeOp_wf .., ?_⟩
    rw [encode_decodeOp, take_slots slots present, List.cons_append, List.take_append_drop]

/-- Settles O3, by the decoder's two answers for a list with an opcode byte. -/
theorem decodeRejectsOnlyShortInput : Obligations.DecodeRejectsOnlyShortInput := by
  intro bs e
  cases bs with
  | nil => simp [decode, eq_comm]
  | cons op bs =>
    rcases decode_cases op bs with ⟨short, answer⟩ | ⟨fits, answer⟩
    · simp [answer, short, eq_comm]
    · simp [answer, fits]

/-- A word whose bytes begin with the encoding of a well-formed instruction decodes to it. -/
theorem decodeTableWord_of_encode {nbits w : Nat} {i : Instr} (rest : List Byte) (wf : i.wf = true)
    (bytes : wordBytes nbits w = encode i ++ rest) : decodeTableWord nbits w = some i := by
  rw [decodeTableWord, bytes, decodeOfEncodeIsTheInstruction i rest wf]

/-- Settles O4: each word's bytes are the instruction's encoding and zeros up to the fourth byte. -/
theorem specWordsDecodeToTheirInstructions : Obligations.SpecWordsDecodeToTheirInstructions :=
  ⟨decodeTableWord_of_encode [0] rfl rfl, decodeTableWord_of_encode [] rfl rfl, decodeTableWord_of_encode [] rfl rfl,
    decodeTableWord_of_encode [] rfl rfl, decodeTableWord_of_encode [] rfl rfl, decodeTableWord_of_encode [] rfl rfl,
    decodeTableWord_of_encode [0, 0] rfl rfl, decodeTableWord_of_encode [0] rfl rfl,
    decodeTableWord_of_encode [0, 0] rfl rfl, decodeTableWord_of_encode [0, 0] rfl rfl,
    decodeTableWord_of_encode [0] rfl rfl, decodeTableWord_of_encode [0, 0, 0] rfl rfl⟩

end Sys2Proof
end

section
/-!
SUPPORT. The length calculator and the decode ROM as tables (30_encoding.md R62, R64, R66).
-/

namespace Sys2Proof

theorem definedOpcode_iff_mem (op : Byte) : definedOpcode op = true ↔
    op ∈ ([0x01, 0x02, 0x03, 0x04, 0x05, 0x06, 0x07, 0x08, 0x09, 0x0A, 0x0B] : List Byte) := by
  revert op; decide

/-- A defined opcode needs one byte for itself and one for each slot with a kind (R62). -/
theorem lengthOf_defined {op : Byte} (h : definedOpcode op = true) :
    (lengthOf op).toNat = 1 + ([(rom op).k1, (rom op).k2, (rom op).k3].filter (· ≠ .none)).length := by
  revert op; decide

/-- Settles O5: three table rows, the rest, and agreement with the ROM. -/
theorem lengthCalculatorFollowsItsTable : Obligations.LengthCalculatorFollowsItsTable := by
  intro op
  refine ⟨?four, ?three, ?two, fun h => ?one, BitVec.eq_of_toNat_eq (lengthOf_eq_rom op), lengthOf_defined⟩
  case four => revert op; decide
  case three => revert op; decide
  case two => revert op; decide
  case one => exact lengthOf_unknown (Bool.eq_false_of_not_eq_true (mt (definedOpcode_iff_mem op).mp h))

/-- The packing of R66 keeps each field of an entry in bits of its own. -/
theorem RomEntry.word_fields (e : RomEntry) :
    e.word.extractLsb 12 9 = e.cls.code ∧ e.word.extractLsb 8 6 = e.len ∧ e.word.extractLsb 5 4 = e.k1.code ∧
    e.word.extractLsb 3 2 = e.k2.code ∧ e.word.extractLsb 1 0 = e.k3.code := by
  unfold RomEntry.word
  refine ⟨?_, ?_, ?_, ?_, ?_⟩ <;> grind

theorem Cls.code_le (c : Cls) : c.code.toNat ≤ 0xB := by cases c <;> decide

/-- Settles O6: three facts for each of eleven rows, then UNKNOWN's entry and the packing of every word. -/
theorem decodeRomHoldsTheTable : Obligations.DecodeRomHoldsTheTable := by
  iterate 33 refine ⟨rfl, ?_⟩
  refine ⟨fun op undefined => ?_, fun op => ?_, rfl, rfl, rfl⟩
  · rw [rom_unknown undefined]
    exact ⟨rfl, rfl, rfl⟩
  · obtain ⟨cls, len, k1, k2, k3⟩ := (rom op).word_fields
    exact ⟨cls, len, k1, k2, k3, (rom op).cls.code_le⟩

end Sys2Proof
end

section
/-!
SUPPORT. Rendered numbers read back (40_decode_unit.md R100, R101), and which records render as `DB` (30_encoding.md R70, R71).
-/

namespace Sys2Proof.Machine

theorem digitValue_digitChar : ∀ d < 16, digitValue (digitChar d) = some d := by decide

/-- One more digit at the end: base times the front, plus the digit. -/
theorem readDigits_concat {b v d : Nat} {cs : List Char} {c : Char} (front : readDigits b cs = some v)
    (last : digitValue c = some d) (digit : d < b) : readDigits b (cs ++ [c]) = some (v * b + d) := by
  unfold readDigits at front ⊢
  rw [List.foldl_append, front]
  simp [last, digit]

/-- The digits of a number read back as that number, in every base up to 16. -/
theorem readDigits_digits {b : Nat} (two : 2 ≤ b) (hex : b ≤ 16) {fuel v : Nat} (enough : v < fuel) :
    readDigits b (digits b fuel v) = some v := by
  induction fuel generalizing v with
  | zero => cases enough
  | succ fuel ih =>
    unfold digits
    split
    case isTrue small => simp [readDigits, digitValue_digitChar v (by omega), small]
    case isFalse =>
      have shorter : v / b < v := Nat.div_lt_self (by omega) two
      have last : v % b < b := Nat.mod_lt v (by omega)
      rw [readDigits_concat (ih (by omega)) (digitValue_digitChar _ (by omega)) last, Nat.div_add_mod']

theorem readDigits_dec (v : Byte) : readDigits 10 (dec v).toList = some v.toNat := by
  simp [dec, readDigits_digits]

theorem dec_injective : Function.Injective dec := fun v w same =>
  BitVec.eq_of_toNat_eq (Option.some.inj (by rw [← readDigits_dec v, same, readDigits_dec w]))

theorem text_of_unknown {d : DecodedInstr} (h : d.cls = .unknown) : text d = "DB " ++ dec d.op := if_pos h

theorem text_of_defined {d : DecodedInstr} (h : d.cls ≠ .unknown) :
    text d = mnemonic d.cls ++ " " ++ joinOperands (renderedOperands d) := if_neg h

/-- No mnemonic but `DB` begins with a `D`. -/
theorem mnemonic_toList_of_defined {c : Cls} (h : c ≠ .unknown) : ∃ a as, (mnemonic c).toList = a :: as ∧ a ≠ 'D' := by
  cases c with
  | unknown => exact absurd rfl h
  | _ => exact ⟨_, _, rfl, by decide⟩

theorem text_ne_db {d : DecodedInstr} (h : d.cls ≠ .unknown) (v : Byte) : text d ≠ "DB " ++ dec v := by
  intro same
  obtain ⟨a, as, name, notD⟩ := mnemonic_toList_of_defined h
  rw [text_of_defined h] at same
  exact notD (by simpa [name] using congrArg (·.toList.head?) same)

theorem rom_cls_ne_unknown {op : Byte} (h : definedOpcode op = true) : (rom op).cls ≠ .unknown := by
  revert op; decide

/-- Settles O52: a defined opcode has a mnemonic of its own, and `DB` shows the very byte, which is then no defined one. -/
theorem listingNeverShowsADefinedOpcodeAsDb : Obligations.ListingNeverShowsADefinedOpcodeAsDb := by
  refine ⟨fun _ _ _ _ _ v defined => text_ne_db (rom_cls_ne_unknown defined) v, fun addr op f1 f2 f3 v low high same => ?_⟩
  cases defined : definedOpcode op with
  | true => exact text_ne_db (rom_cls_ne_unknown defined) v same
  | false =>
    have unknown : (romRecord addr op f1 f2 f3).cls = .unknown := congrArg RomEntry.cls (rom_unknown defined)
    rw [text_of_unknown unknown] at same
    obtain rfl : op = v := dec_injective (String.append_right_inj _ |>.mp same)
    simp [definedOpcode, low, high] at defined

end Sys2Proof.Machine
end

section
/-!
SUPPORT. The decode unit of R96 against the machine's step: the same answer in every running state (40_decode_unit.md R91 to R96),
and that the answer depends only on N, `pc` and the bytes below N.
-/

namespace Sys2Proof.Machine

/-- A whole instruction's meaning emits the ROM's record (R94, R95). -/
theorem exec_decodeOp {s : State} {op f1 f2 f3 : Byte} (fits : s.pc + (rom op).len.toNat ≤ s.n)
    (h1 : SlotHolds s.prog s.pc (rom op).len 1 f1) (h2 : SlotHolds s.prog s.pc (rom op).len 2 f2)
    (h3 : SlotHolds s.prog s.pc (rom op).len 3 f3) :
    exec (decodeOp op f1 f2 f3) s = .next (s.retire (romRecord s.pc op f1 f2 f3)) := by
  rw [exec_eq_complete, recordOf_decodeOp h1 h2 h3]
  rcases completeDecode_cases (romRecord s.pc op f1 f2 f3) s with ⟨short, _⟩ | ⟨_, answer⟩
  · exact absurd short (Nat.not_lt.mpr fits)
  · exact answer

/-- Under the policy Fault an operand is fetched as the machine fetches it. -/
theorem unitOperand_fault (s : State) (len : BitVec 3) (k : Nat) : unitOperand .fault s len k = s.fetchOperand len k := rfl

/-- In RUN the block's step is R96's function and its `apply`, read by read. -/
theorem blockStep_eq_unitStep {s : State} (run : s.st = .run) : blockStep s = unitStep .fault s := by
  simp only [blockStep, run, State.fetch, unitStep, decodeUnit, unitOperand_fault, true_and, bind, Except.bind, pure, Except.pure]
  by_cases atEnd : s.n ≤ s.pc
  · rw [if_pos atEnd, if_pos atEnd]; rfl
  rw [if_neg atEnd, if_neg atEnd]
  rcases s.memRead s.pc with f | op
  · rfl
  by_cases short : s.isTruncated (rom op).len = true
  · simp only [if_pos short]; rfl
  have fits : s.pc + (rom op).len.toNat ≤ s.n := by rw [State.isTruncated_iff] at short; omega
  simp only [if_neg short]
  rcases e1 : s.fetchOperand (rom op).len 1 with f | f1
  · rfl
  rcases e2 : s.fetchOperand (rom op).len 2 with f | f2
  · rfl
  rcases e3 : s.fetchOperand (rom op).len 3 with f | f3
  · rfl
  exact exec_decodeOp fits (fetchOperand_ok e1) (fetchOperand_ok e2) (fetchOperand_ok e3)

theorem step_eq_unitStep {s : State} (running : Running s) : step s = unitStep .fault s :=
  (step_of_no_turns running.2).trans (blockStep_eq_unitStep running.1)

/-- The same N and the same bytes below N give the same MemRead. -/
theorem State.memRead_congr {s s' : State} (n : s'.n = s.n)
    (bytes : ∀ a, a < s.n → Memory.lookup s'.prog a = Memory.lookup s.prog a) (a : Nat) : s'.memRead a = s.memRead a := by
  unfold State.memRead
  rw [n]
  by_cases below : a < s.n
  · rw [bytes a below]
  · rw [if_neg below, if_neg below]

/-- R96's function reads only N, `pc` and the bytes below N. -/
theorem decodeUnit_congr (p : TruncPolicy) {s s' : State} (pc : s'.pc = s.pc) (n : s'.n = s.n)
    (bytes : ∀ a, a < s.n → Memory.lookup s'.prog a = Memory.lookup s.prog a) : decodeUnit p s' = decodeUnit p s := by
  have truncated (len : BitVec 3) : s'.isTruncated len = s.isTruncated len := by
    unfold State.isTruncated; rw [pc, n]
  have operand (len : BitVec 3) (k : Nat) : unitOperand p s' len k = unitOperand p s len k := by
    unfold unitOperand; rw [pc, n, State.memRead_congr n bytes]
  unfold decodeUnit
  simp only [truncated, operand, State.memRead_congr n bytes, pc, n]

/-- Settles O23: both designs make the same reads in the same order, and `exec` emits the ROM's record. -/
theorem runningStepIsTheDecodeUnit : Obligations.RunningStepIsTheDecodeUnit :=
  ⟨fun _ => step_eq_unitStep, rfl, fun p _ _ prog n pc => decodeUnit_congr p pc n fun _ _ => by rw [prog]⟩

end Sys2Proof.Machine
end

section
/-!
SUPPORT. Runs of a pass: a pass ends, accounts for every byte, and depends only on its inputs (40_decode_unit.md R97 to R99).
-/

namespace Sys2Proof.Machine

/-- What one step keeps, a run keeps. -/
theorem runFor_keeps {I : State → Prop} (keeps : ∀ s t, I s → step s = .next t → I t) {k : Nat} {s t : State} (hs : I s)
    (h : runFor k s = .next t) : I t := by
  induction k generalizing s with
  | zero => cases h; exact hs
  | succ k ih =>
    obtain ⟨u, first, rest⟩ := runFor_succ_next h
    exact ih (keeps s u hs first) rest

/-! ### Termination -/

/-- With its buffer placed, a running step makes one of the block's moves: nothing is absent. -/
theorem exists_step_of_programmed {s : State} (running : Running s) (programmed : Programmed s) :
    ∃ t, step s = .next t ∧ BlockMove s t := by
  rw [step_of_no_turns running.2]
  rcases blockStep_cases s with ⟨_, e⟩ | ⟨_, _, e⟩ | ⟨_, _, _, _, _, e⟩ | ⟨_, _, _, _, _, _, _, _, _, _, _, e⟩ |
      ⟨a, _, below, absent, _⟩
  case inr.inr.inr.inr =>
    obtain ⟨b, placed⟩ := programmed a below
    simp [placed] at absent
  all_goals exact ⟨_, e, blockMove_of_next e⟩

/-- A pass ends: the distance from `pc` to N falls with every record (R97). -/
theorem exists_ended_run {s : State} (running : Running s) (programmed : Programmed s) :
    ∃ k t, k ≤ (s.n - s.pc) + 1 ∧ runFor k s = .next t ∧ Ended t ∧ t.out.length ≤ s.out.length + (s.n - s.pc) := by
  obtain ⟨t, first, move⟩ := exists_step_of_programmed running programmed
  cases move with
  | hold notRun => exact absurd running.1 notRun
  | stop => exact ⟨1, _, Nat.le_add_left 1 _, runFor_of_next first, .inl rfl, Nat.le_add_right _ _⟩
  | truncate => exact ⟨1, _, Nat.le_add_left 1 _, runFor_of_next first, .inr rfl, Nat.le_add_right _ _⟩
  | emit op f1 f2 f3 _ fits =>
    have advance := rom_len_pos op
    obtain ⟨k, u, steps, rest, ended, records⟩ :=
      exists_ended_run (s := s.retire (romRecord s.pc op f1 f2 f3)) running programmed
    simp only [State.retire_n, State.retire_pc, State.retire_out, romRecord_len, List.length_append,
      List.length_singleton] at steps records
    exact ⟨k + 1, u, by omega, (runFor_of_next first).trans rest, ended, by omega⟩
termination_by s.n - s.pc
decreasing_by simp only [State.retire_n, State.retire_pc, romRecord_len]; omega

/-- Settles O46: the bound is on the distance from `pc` to N, which only an emitted record shortens. -/
theorem everyPassTerminates : Obligations.EveryPassTerminates := by
  refine ⟨fun s running empty programmed => ?_, fun s t running h emitted => ?_⟩
  · obtain ⟨k, t, steps, run, ended, records⟩ := exists_ended_run running programmed
    exact ⟨k, t, steps, run, ended, by simpa [empty] using records⟩
  · cases blockMove_of_step running.2 h with
    | hold | stop | truncate => exact absurd rfl emitted
    | emit op _ _ _ _ fits => exact ⟨Nat.add_le_add_left (rom_len_pos op) _, fits⟩

/-! ### Every byte is accounted for -/

@[simp] theorem totalLength_append (ds ds' : List DecodedInstr) :
    totalLength (ds ++ ds') = totalLength ds + totalLength ds' := by
  simp [totalLength]

@[simp] theorem totalLength_singleton (d : DecodedInstr) : totalLength [d] = d.len.toNat := by simp [totalLength]

/-- Each record's address is `p` plus the lengths of the records before it (R98). -/
def AddrsFrom (p : Nat) (ds : List DecodedInstr) : Prop :=
  ∀ (i : Nat) (d : DecodedInstr), ds[i]? = some d → d.addr = p + totalLength (ds.take i)

theorem AddrsFrom.snoc {p : Nat} {ds : List DecodedInstr} {d : DecodedInstr} (h : AddrsFrom p ds)
    (addr : d.addr = p + totalLength ds) : AddrsFrom p (ds ++ [d]) := by
  intro i e at_i
  rcases Nat.lt_or_ge i ds.length with old | new
  · rw [List.getElem?_append_left old] at at_i
    rw [List.take_append_of_le_length old.le]
    exact h i e at_i
  · obtain ⟨last, rfl⟩ : i - ds.length = 0 ∧ d = e := by
      simpa [List.getElem?_append_right new, List.getElem?_singleton] using at_i
    obtain rfl : i = ds.length := by omega
    rw [List.take_left, addr]

/-- What holds during and after a pass that began at `p` with an empty output over `size` bytes (R98). -/
structure PassFrom (p size : Nat) (t : State) : Prop where
  turns : t.turns = []
  n : t.n = size
  pc : t.pc = p + totalLength t.out
  increasing : (t.out.map (·.addr)).Pairwise (· < ·)
  /-- The next address is above all before it. -/
  below : ∀ d ∈ t.out, d.addr < t.pc
  addrs : AddrsFrom p t.out
  /-- A record ends within the buffer. -/
  within : p ≤ size → t.pc ≤ size
  done : t.st = .done → size ≤ t.pc
  fault : t.st = .fault → t.fault.fPc = t.pc ∧ t.fault.fAvail = size - t.pc

theorem PassFrom.of_running {s : State} (running : Running s) (empty : s.out = []) : PassFrom s.pc s.n s where
  turns := running.2
  n := rfl
  pc := by simp [empty, totalLength]
  increasing := by simp [empty]
  below := by simp [empty]
  addrs := by simp [empty, AddrsFrom]
  within := id
  done := fun done => by simp [running.1] at done
  fault := fun fault => by simp [running.1] at fault

theorem PassFrom.retire {p size : Nat} {s : State} {d : DecodedInstr} (h : PassFrom p size s) (run : s.st = .run)
    (addr : d.addr = s.pc) (pos : 1 ≤ d.len.toNat) (fits : s.pc + d.len.toNat ≤ s.n) : PassFrom p size (s.retire d) where
  turns := h.turns
  n := h.n
  pc := by simp [h.pc, Nat.add_assoc]
  increasing := by simpa [List.pairwise_append, addr] using And.intro h.increasing h.below
  below := List.forall_mem_append.mpr
    ⟨fun e old => Nat.lt_add_right _ (h.below e old), List.forall_mem_singleton.mpr (by simp only [State.retire_pc]; omega)⟩
  addrs := h.addrs.snoc (addr.trans h.pc)
  within := fun _ => h.n ▸ fits
  done := fun done => by simp [run] at done
  fault := fun fault => by simp [run] at fault

theorem BlockMove.keeps_passFrom {p size : Nat} {s t : State} (h : PassFrom p size s) (move : BlockMove s t) :
    PassFrom p size t := by
  cases move with
  | hold => exact h
  | stop _ atEnd => exact { h with done := fun _ => h.n ▸ atEnd, fault := nofun }
  | truncate => exact { h with done := nofun, fault := fun _ => ⟨rfl, h.n ▸ rfl⟩ }
  | emit op f1 f2 f3 run fits => exact h.retire run rfl (rom_len_pos op) fits

/-- Settles O47: `pc` is always START_PC plus the lengths so far, and the next record's address. -/
theorem passAccountsForEveryByte : Obligations.PassAccountsForEveryByte := by
  intro s t k running empty h
  have pass : PassFrom s.pc s.n t :=
    runFor_keeps (fun _ _ hs step => (blockMove_of_step hs.turns step).keeps_passFrom hs) (.of_running running empty) h
  have pc := pass.pc
  refine ⟨pass.increasing, pass.addrs, fun done start => ?_, fun fault => ?_⟩
  · have atEnd := pass.done done
    have within := pass.within start
    omega
  · obtain ⟨fPc, fAvail⟩ := pass.fault fault
    rw [fPc, fAvail]
    omega

/-! ### Two passes over the same bytes -/

/-- Outside RUN, with no host turn waiting, the state is held (R90, log 4). -/
theorem step_outside_run {s : State} (noTurns : s.turns = []) (notRun : s.st ≠ .run) : step s = .next s := by
  rw [step_of_no_turns noTurns]
  unfold blockStep
  cases st : s.st with
  | run => exact absurd st notRun
  | idle | done | fault => rfl

/-- A step in RUN that goes on has applied what R96's function answered. -/
theorem unitStep_next_iff {p : TruncPolicy} {s t : State} :
    unitStep p s = .next t ↔ ∃ r, decodeUnit p s = .ok r ∧ s.applyUnit r = t := by
  unfold unitStep
  cases decodeUnit p s <;> simp

/-- Two states of passes over the same bytes: all the block holds is the same, and the buffers agree below N (R99). -/
structure SamePass (s s' : State) : Prop where
  turns : s.turns = []
  turns' : s'.turns = []
  st : s'.st = s.st
  pc : s'.pc = s.pc
  n : s'.n = s.n
  fault : s'.fault = s.fault
  out : s'.out = s.out
  bytes : ∀ a, a < s.n → Memory.lookup s'.prog a = Memory.lookup s.prog a

theorem SamePass.applyUnit {s s' : State} (h : SamePass s s') (r : UnitResult) :
    SamePass (s.applyUnit r) (s'.applyUnit r) := by
  cases r with
  | done => exact { h with st := rfl }
  | fault => exact { h with st := rfl, fault := rfl }
  | emit d => exact { h with pc := rfl, out := congrArg (· ++ [d]) h.out }

theorem SamePass.step {s s' t : State} (h : SamePass s s') (e : step s = .next t) :
    ∃ t', step s' = .next t' ∧ SamePass t t' := by
  by_cases run : s.st = .run
  · rw [step_eq_unitStep ⟨run, h.turns⟩, unitStep_next_iff] at e
    obtain ⟨r, answer, rfl⟩ := e
    have answer' : decodeUnit .fault s' = .ok r := (decodeUnit_congr .fault h.pc h.n h.bytes).trans answer
    rw [step_eq_unitStep ⟨h.st.trans run, h.turns'⟩]
    exact ⟨_, unitStep_next_iff.mpr ⟨r, answer', rfl⟩, h.applyUnit r⟩
  · rw [step_outside_run h.turns run] at e
    cases e
    exact ⟨s', step_outside_run h.turns' (h.st ▸ run), h⟩

theorem SamePass.runFor {k : Nat} {s s' t : State} (h : SamePass s s') (e : runFor k s = .next t) :
    ∃ t', runFor k s' = .next t' ∧ SamePass t t' := by
  induction k generalizing s s' with
  | zero => cases e; exact ⟨s', rfl, h⟩
  | succ k ih =>
    obtain ⟨u, first, rest⟩ := runFor_succ_next e
    obtain ⟨u', first', same⟩ := h.step first
    obtain ⟨t', rest', last⟩ := ih same rest
    exact ⟨t', (runFor_of_next first').trans rest', last⟩

/-- Settles O48: a start leaves the two states the same but for their buffers, and every step keeps them so. -/
theorem passDependsOnlyOnItsInputs : Obligations.PassDependsOnlyOnItsInputs := by
  intro s s' t nIn p k turns turns' bytes h
  have start : SamePass (s.startPass nIn p) (s'.startPass nIn p) := ⟨turns, turns', rfl, rfl, rfl, rfl, rfl, bytes⟩
  obtain ⟨t', h', same⟩ := start.runFor h
  exact ⟨t', h', same.out, congrArg (List.map line) same.out, same.st, same.pc, same.fault⟩

end Sys2Proof.Machine
end

section
/-!
SUPPORT. The decode unit case by case: its stop test, and the record of a whole instruction under either policy (40_decode_unit.md
R91, R94, R95, R103, R104).
-/

namespace Sys2Proof.Machine

/-- At or past the end a step only sets DONE, under either policy (R91, R104). -/
theorem unitStep_of_end (p : TruncPolicy) {s : State} (atEnd : s.n ≤ s.pc) : unitStep p s = .next s.stopPass := by
  rw [unitStep, decodeUnit, if_pos atEnd]; rfl

/-- Where the instruction is not truncated, or truncation is no matter, its record is emitted (R94, R95, R104). -/
theorem unitStep_of_operands {p : TruncPolicy} {s : State} {op f1 f2 f3 : Byte} (before : s.pc < s.n)
    (byteAt : Memory.lookup s.prog s.pc = some op) (goesOn : ¬(p = .fault ∧ s.isTruncated (rom op).len))
    (e1 : unitOperand p s (rom op).len 1 = .ok f1) (e2 : unitOperand p s (rom op).len 2 = .ok f2)
    (e3 : unitOperand p s (rom op).len 3 = .ok f3) : unitStep p s = .next (s.retire (romRecord s.pc op f1 f2 f3)) := by
  have answer : decodeUnit p s = .ok (.emit (romRecord s.pc op f1 f2 f3) (s.pc + (rom op).len.toNat)) := by
    simp [decodeUnit, Nat.not_le.mpr before, State.memRead_of_lookup before byteAt, goesOn, e1, e2, e3, bind, Except.bind,
      pure, Except.pure]
  rw [unitStep, answer]; rfl

/-- A whole instruction in the buffer is emitted (R94, R95). -/
theorem unitStep_of_slots {s : State} {op f1 f2 f3 : Byte} (fits : s.pc + (rom op).len.toNat ≤ s.n)
    (byteAt : Memory.lookup s.prog s.pc = some op) (h1 : SlotHolds s.prog s.pc (rom op).len 1 f1)
    (h2 : SlotHolds s.prog s.pc (rom op).len 2 f2) (h3 : SlotHolds s.prog s.pc (rom op).len 3 f3) :
    unitStep .fault s = .next (s.retire (romRecord s.pc op f1 f2 f3)) := by
  have len := rom_len_pos op
  exact unitStep_of_operands (by omega) byteAt (fun ⟨_, short⟩ => Nat.not_lt.mpr fits ((s.isTruncated_iff _).mp short))
    (fetchOperand_of_slot fits h1) (fetchOperand_of_slot fits h2) (fetchOperand_of_slot fits h3)

/-- Settles O24, by the stop test of R96's function. -/
theorem stopTestEndsThePass : Obligations.StopTestEndsThePass := by
  have stop (s : State) (running : Running s) (atEnd : s.n ≤ s.pc) : step s = .next s.stopPass :=
    (step_eq_unitStep running).trans (unitStep_of_end .fault atEnd)
  exact ⟨stop, fun s nIn p noTurns atEnd => ⟨_, stop (s.startPass nIn p) ⟨rfl, noTurns⟩ atEnd, rfl, rfl, rfl⟩⟩

/-- Settles O26: the step is R96's function, which emits the record of R94. -/
theorem wholeInstructionIsEmitted : Obligations.WholeInstructionIsEmitted :=
  fun _ _ _ _ _ running fits byteAt h1 h2 h3 =>
    (step_eq_unitStep running).trans (unitStep_of_slots fits byteAt h1 h2 h3)

/-! ### The alternative policy -/

/-- Under PadZero a slot holds the buffer's byte below N and 0 at or beyond it (R54, R104). -/
theorem unitOperand_padZero {s : State} {len : BitVec 3} {k : Nat} {f : Byte}
    (slot : if k < len.toNat ∧ s.pc + k < s.n then Memory.lookup s.prog (s.pc + k) = some f else f = 0) :
    unitOperand .padZero s len k = .ok f := by
  unfold unitOperand
  by_cases has : k < len.toNat
  · by_cases below : s.pc + k < s.n
    · rw [if_pos ⟨has, below⟩] at slot
      simp [has, Nat.not_le.mpr below, State.memRead_of_lookup below slot]
    · rw [if_neg (fun ⟨_, below'⟩ => below below')] at slot
      simp [has, Nat.le_of_not_lt below, slot]
  · rw [if_neg (fun ⟨has', _⟩ => has has')] at slot
    simp [has, slot]

/-- Settles O53: PadZero makes no truncation test, and a padded slot reads as 0. -/
theorem padZeroAlternative : Obligations.PadZeroAlternative := by
  refine ⟨fun s op f before byteAt slots => ⟨?_, ?_⟩, fun s atEnd => unitStep_of_end .padZero atEnd⟩
  · exact unitStep_of_operands before byteAt (fun ⟨policy, _⟩ => nomatch policy) (unitOperand_padZero (slots 1 (by decide)))
      (unitOperand_padZero (slots 2 (by decide))) (unitOperand_padZero (slots 3 (by decide)))
  · have len := rom_len_le op
    omega

/-! ### Decoding the bytes at `pc` -/

/-- Only the slots an instruction has are looked at (R63, R94). -/
theorem decodeOp_congr {op f1 f2 f3 g1 g2 g3 : Byte} (h1 : 1 < (rom op).len.toNat → f1 = g1)
    (h2 : 2 < (rom op).len.toNat → f2 = g2) (h3 : 3 < (rom op).len.toNat → f3 = g3) :
    decodeOp op f1 f2 f3 = decodeOp op g1 g2 g3 := by
  rcases opcode_cases op with rfl | rfl | rfl | rfl | rfl | rfl | rfl | rfl | rfl | rfl | rfl | ⟨undefined, _⟩
  case inr.inr.inr.inr.inr.inr.inr.inr.inr.inr.inr => rw [decodeOp_unknown undefined, decodeOp_unknown undefined]
  all_goals
    simp [rom] at h1 h2 h3
    simp [decodeOp, rom, *]

/-- What slot `k` of an instruction of length `len` holds when these bytes stand at its address (R94). -/
def slotByte (bs : List Byte) (len : BitVec 3) (k : Nat) : Byte := if k < len.toNat then bs.getD k 0 else 0

theorem BytesAt.lookup {m : Memory} {a k : Nat} {bs : List Byte} (h : BytesAt m a bs) (present : k < bs.length) :
    Memory.lookup m (a + k) = some (bs.getD k 0) := by
  induction bs generalizing a k with
  | nil => cases present
  | cons b bs ih =>
    obtain ⟨first, rest⟩ := h
    cases k with
    | zero => exact first
    | succ k => rw [← Nat.add_assoc, Nat.add_right_comm]; exact ih rest (Nat.lt_of_succ_lt_succ present)

theorem BytesAt.slotHolds {m : Memory} {a : Nat} {bs : List Byte} {len : BitVec 3} (h : BytesAt m a bs)
    (present : len.toNat ≤ bs.length) (k : Nat) : SlotHolds m a len k (slotByte bs len k) := by
  unfold SlotHolds slotByte
  split
  case isTrue has => exact h.lookup (has.trans_le present)
  case isFalse => rfl

/-- In RUN the block's step executes the instruction that its bytes decode to. -/
theorem blockStep_of_decode {s : State} {bs rest : List Byte} {i : Instr} (run : s.st = .run) (bytes : BytesAt s.prog s.pc bs)
    (inside : s.pc + bs.length ≤ s.n) (decoded : decode bs = .ok (i, rest)) : blockStep s = exec i s := by
  cases bs with
  | nil => cases decoded
  | cons op tl =>
    rcases decode_cases op tl with ⟨_, answer⟩ | ⟨present, answer⟩ <;> rw [answer] at decoded <;> cases decoded
    rw [lengthOf_eq_rom] at present
    have fits : s.pc + (rom op).len.toNat ≤ s.n := (Nat.add_le_add_left present _).trans inside
    have slot := bytes.slotHolds present
    have same : decodeOp op (tl.getD 0 0) (tl.getD 1 0) (tl.getD 2 0) = decodeOp op (slotByte (op :: tl) (rom op).len 1)
        (slotByte (op :: tl) (rom op).len 2) (slotByte (op :: tl) (rom op).len 3) :=
      decodeOp_congr (fun has => (if_pos has).symm) (fun has => (if_pos has).symm) (fun has => (if_pos has).symm)
    rw [same, exec_decodeOp fits (slot 1) (slot 2) (slot 3), blockStep_eq_unitStep run,
      unitStep_of_slots fits bytes.1 (slot 1) (slot 2) (slot 3)]

/-- Settles O21: with no host turn, or `.block`, a step is the block's own. -/
theorem stepRunsTheDecodedInstruction : Obligations.StepRunsTheDecodedInstruction := by
  intro s bs rest i run bytes inside decoded
  refine ⟨(encodeOfDecodeGivesTheBytes bs i rest decoded).1, fun noTurns => ?_, fun ts turn => ?_⟩
  · rw [step_of_no_turns noTurns, blockStep_of_decode run bytes inside decoded]
  · rw [step, turn]
    exact blockStep_of_decode (s := { s with turns := ts }) run bytes inside decoded

/-- Settles O20: the record's opcode, class, length and kinds are the ROM's, and the length alone decides the outcome. -/
theorem operandValuesSteerNothing : Obligations.OperandValuesSteerNothing := by
  intro op f1 f2 f3 g1 g2 g3 s
  obtain ⟨fOp, fCls, fLen, fk1, fk2, fk3⟩ := recordOf_decodeOp_fixed op f1 f2 f3 s.pc
  obtain ⟨gOp, gCls, gLen, gk1, gk2, gk3⟩ := recordOf_decodeOp_fixed op g1 g2 g3 s.pc
  rw [exec_eq_complete, exec_eq_complete, completeDecode, completeDecode, fOp, gOp, fLen, gLen]
  by_cases short : s.isTruncated (rom op).len = true
  · rw [if_pos short, if_pos short]
    exact ⟨_, _, rfl, rfl, rfl, rfl, rfl, rfl, rfl, rfl, .inl ⟨rfl, rfl⟩⟩
  · rw [if_neg short, if_neg short]
    have len := fLen.trans gLen.symm
    have pc := congrArg (fun l : BitVec 3 => s.pc + l.toNat) len
    exact ⟨_, _, rfl, rfl, rfl, pc, rfl, rfl, rfl, rfl, .inr ⟨_, _, rfl, rfl, by rw [recordOf_addr, recordOf_addr],
      fOp.trans gOp.symm, fCls.trans gCls.symm, len, fk1.trans gk1.symm, fk2.trans gk2.symm, fk3.trans gk3.symm⟩⟩

end Sys2Proof.Machine
end

section
/-!
SUPPORT. Rendered addresses and bytes: how long they are, how they begin, and that a line tells its address (40_decode_unit.md R100
to R102, 92_eei_decisions.md D9).
-/

namespace Sys2Proof.Machine

/-- The first digit exists, and is 0 only for the number 0. -/
theorem digits_eq_cons {b : Nat} (two : 2 ≤ b) (hex : b ≤ 16) {fuel v : Nat} (enough : v < fuel) :
    ∃ c cs, digits b fuel v = c :: cs ∧ (c = '0' → v = 0) := by
  induction fuel generalizing v with
  | zero => cases enough
  | succ fuel ih =>
    unfold digits
    split
    case isTrue small =>
      have zero : ∀ d < 16, digitChar d = '0' → d = 0 := by decide
      exact ⟨_, [], rfl, zero v (by omega)⟩
    case isFalse large =>
      have shorter : v / b < v := Nat.div_lt_self (by omega) two
      have front : v / b ≠ 0 := (Nat.div_pos (Nat.le_of_not_lt large) (by omega)).ne'
      obtain ⟨c, cs, first, nonzero⟩ := ih (v := v / b) (by omega)
      exact ⟨c, cs ++ [digitChar (v % b)], by rw [first, List.cons_append], fun zero => absurd (nonzero zero) front⟩

theorem eq_zero_of_head_digits {b : Nat} (two : 2 ≤ b) (hex : b ≤ 16) {fuel v : Nat} (enough : v < fuel)
    (head : (digits b fuel v).head? = some '0') : v = 0 := by
  obtain ⟨c, cs, first, nonzero⟩ := digits_eq_cons two hex enough
  rw [first] at head
  exact nonzero (Option.some.inj head)

theorem length_digits_of_lt {b v : Nat} (fuel : Nat) (small : v < b) : (digits b (fuel + 1) v).length = 1 := by
  rw [digits, if_pos small]; rfl

theorem length_digits_of_ge {b v : Nat} (fuel : Nat) (large : b ≤ v) :
    (digits b (fuel + 1) v).length = (digits b fuel (v / b)).length + 1 := by
  rw [digits, if_neg (Nat.not_lt.mpr large), List.length_append]; rfl

theorem exists_digit_of_mem_digits {b : Nat} (hb : 0 < b) {c : Char} {fuel v : Nat} (h : c ∈ digits b fuel v) :
    ∃ d < b, c = digitChar d := by
  induction fuel generalizing v with
  | zero => cases h
  | succ fuel ih =>
    unfold digits at h
    split at h
    case isTrue small => exact ⟨v, small, List.mem_singleton.mp h⟩
    case isFalse =>
      rcases List.mem_append.mp h with front | last
      · exact ih front
      · exact ⟨v % b, Nat.mod_lt v hb, List.mem_singleton.mp last⟩

/-- Zeros on the left do not change the number. -/
theorem readDigits_padLeft {b : Nat} (hb : 0 < b) (w : Nat) (cs : List Char) : readDigits b (padLeft w cs) = readDigits b cs := by
  have zeros (k : Nat) : readDigits b (List.replicate k '0') = some 0 := by
    induction k with
    | zero => rfl
    | succ k ih => rw [List.replicate_succ', readDigits_concat ih (d := 0) (by decide) hb, Nat.zero_mul]
  unfold readDigits padLeft at *
  rw [List.foldl_append, zeros]

/-! ### Bytes in decimal -/

theorem eq_zero_of_head_dec {v : Byte} (head : (dec v).toList.head? = some '0') : v = 0 := by
  rw [dec, String.toList_ofList] at head
  exact BitVec.eq_of_toNat_eq (eq_zero_of_head_digits (by decide) (by decide) (Nat.lt_succ_self _) head)

/-- Settles O50: `dec` does not pad, so its first character is the first digit of the byte. -/
theorem decimalReadsBack : Obligations.DecimalReadsBack :=
  ⟨fun v => ⟨readDigits_dec v, eq_zero_of_head_dec⟩, by decide⟩

/-! ### Addresses in hex -/

theorem hex2_toList (a : Nat) : (hex2 a).toList = padLeft 2 (digits 16 (a + 1) a) := String.toList_ofList

theorem readDigits_hex2 (a : Nat) : readDigits 16 (hex2 a).toList = some a := by
  rw [hex2_toList, readDigits_padLeft (by decide), readDigits_digits (by decide) (by decide) (Nat.lt_succ_self a)]

theorem length_padLeft (w : Nat) (cs : List Char) : (padLeft w cs).length = max w cs.length := by
  rw [padLeft, List.length_append, List.length_replicate]; omega

/-- An address from 0x10 on needs no padding. -/
theorem hex2_toList_of_ge {a : Nat} (large : 0x10 ≤ a) : (hex2 a).toList = digits 16 (a + 1) a := by
  obtain ⟨c, cs, front, _⟩ := digits_eq_cons (b := 16) (by decide) (by decide) (v := a / 16) (fuel := a) (by omega)
  have length : (digits 16 (a + 1) a).length = cs.length + 2 := by rw [length_digits_of_ge a large, front]; rfl
  rw [hex2_toList, padLeft, length, show 2 - (cs.length + 2) = 0 by omega, List.replicate_zero, List.nil_append]

theorem length_digits_le_two {a : Nat} (small : a < 0x100) : (digits 16 (a + 1) a).length ≤ 2 := by
  rcases Nat.lt_or_ge a 16 with one | two
  · rw [length_digits_of_lt a one]; decide
  · obtain ⟨fuel, rfl⟩ : ∃ fuel, a = fuel + 1 := ⟨a - 1, by omega⟩
    rw [length_digits_of_ge _ two, length_digits_of_lt fuel (by omega)]

/-- Settles O49: the padding changes no value, and stands only before a single digit. -/
theorem hexAddressReadsBack : Obligations.HexAddressReadsBack := by
  refine ⟨fun a => ⟨readDigits_hex2 a, ?_, fun small => ?_, fun large head => ?_⟩, by decide⟩
  · rw [hex2_toList, length_padLeft]
    exact Nat.le_max_left 2 _
  · rw [hex2_toList, length_padLeft, Nat.max_eq_left (length_digits_le_two small)]
  · rw [hex2_toList_of_ge (by omega)] at head
    have zero := eq_zero_of_head_digits (by decide) (by decide) (Nat.lt_succ_self a) head
    omega

/-! ### Lines -/

theorem hex2_injective : Function.Injective hex2 := fun a a' same =>
  Option.some.inj (by rw [← readDigits_hex2 a, same, readDigits_hex2 a'])

/-- The colon ends the address: it is no character of it. -/
theorem ne_colon_of_mem_hex2 {a : Nat} {c : Char} (h : c ∈ (hex2 a).toList) : c ≠ ':' := by
  rw [hex2_toList, padLeft, List.mem_append] at h
  rcases h with pad | digit
  · rw [List.eq_of_mem_replicate pad]; decide
  · have notColon : ∀ d < 16, digitChar d ≠ ':' := by decide
    obtain ⟨d, hex, rfl⟩ := exists_digit_of_mem_digits (by decide) digit
    exact notColon d hex

/-- The address stands in the line up to the colon. -/
theorem takeWhile_line (d : DecodedInstr) : (line d).toList.takeWhile (· ≠ ':') = (hex2 d.addr).toList := by
  rw [line, String.toList_append, String.toList_append, List.append_assoc,
    List.takeWhile_append_of_pos fun _ h => decide_eq_true (ne_colon_of_mem_hex2 h)]
  exact List.append_nil _

/-- Settles O51: a line tells its address. -/
theorem linesOfDistinctAddressesDiffer : Obligations.LinesOfDistinctAddressesDiffer := by
  intro d d' differ same
  have address : (hex2 d.addr).toList = (hex2 d'.addr).toList := by rw [← takeWhile_line, same, takeWhile_line]
  exact differ (hex2_injective (String.toList_injective address))

end Sys2Proof.Machine
end

section
/-!
SUPPORT. A defined instruction's meaning by the bytes that are left (40_decode_unit.md R93, R95), and its line by the number of
its operands (R102): what the rules of the single instructions are assembled from.
-/

namespace Sys2Proof.Machine

/-- With all its bytes left, an instruction's record is emitted (R95). -/
theorem exec_of_fits {i : Instr} {s : State} (fits : s.pc + (encode i).length ≤ s.n) :
    exec i s = .next (s.retire (recordOf i s.pc)) := by
  rw [← recordOf_len i s.pc] at fits
  rcases completeDecode_cases (recordOf i s.pc) s with ⟨short, _⟩ | ⟨_, answer⟩
  · exact absurd short (Nat.not_lt.mpr fits)
  · rw [exec_eq_complete, answer]

/-- With fewer bytes left, TruncatedInstruction is taken (R93). -/
theorem exec_of_short {i : Instr} {s : State} (short : s.n < s.pc + (encode i).length) :
    exec i s = .next (s.takeTruncated (recordOf i s.pc).op (recordOf i s.pc).len) := by
  rw [← recordOf_len i s.pc] at short
  rcases completeDecode_cases (recordOf i s.pc) s with ⟨_, answer⟩ | ⟨fits, _⟩
  · rw [exec_eq_complete, answer]
  · exact absurd short (Nat.not_lt.mpr fits)

/-- What stands before the decimal value of an operand (R102). -/
def sigil : Kind → String
  | .reg => "R"
  | .imm | .none => ""

theorem renderOperand_eq_sigil (k : Kind) (v : Byte) : renderOperand k v = sigil k ++ dec v := by
  cases k with
  | reg => rfl
  | imm | none => exact String.empty_append.symm

/-- The line of a defined instruction with two operands. -/
theorem line_of_two_operands {d : DecodedInstr} (defined : d.cls ≠ .unknown) (len : d.len = 3) :
    line d = hex2 d.addr ++ (": " ++ mnemonic d.cls ++ " " ++ sigil d.k1) ++ dec d.f1 ++
      (", " ++ sigil d.k2) ++ dec d.f2 := by
  have operands : renderedOperands d = [renderOperand d.k1 d.f1, renderOperand d.k2 d.f2] := by
    rw [renderedOperands, len]; rfl
  simp only [line, text_of_defined defined, operands, joinOperands, renderOperand_eq_sigil, String.append_assoc]

/-- The line of a defined instruction with three operands. -/
theorem line_of_three_operands {d : DecodedInstr} (defined : d.cls ≠ .unknown) (len : d.len = 4) :
    line d = hex2 d.addr ++ (": " ++ mnemonic d.cls ++ " " ++ sigil d.k1) ++ dec d.f1 ++
      (", " ++ sigil d.k2) ++ dec d.f2 ++ (", " ++ sigil d.k3) ++ dec d.f3 := by
  have operands : renderedOperands d =
      [renderOperand d.k1 d.f1, renderOperand d.k2 d.f2, renderOperand d.k3 d.f3] := by
    rw [renderedOperands, len]; rfl
  simp only [line, text_of_defined defined, operands, joinOperands, renderOperand_eq_sigil, String.append_assoc]

end Sys2Proof.Machine
end

section
/-!
SUPPORT. The load and store opcodes (41_load_store.md R110 to R113): encoding, record, advance, truncation and rendering.
-/

namespace Sys2Proof.Machine

/-- Settles O7: three bytes in format RI (R110). -/
theorem loadImmDecodesToItsRecord : Obligations.LoadImmDecodesToItsRecord :=
  fun r imm s => ⟨rfl, fun rest => decodeOfEncodeIsTheInstruction (.loadImm r imm) rest rfl,
    fun fits => exec_of_fits fits, fun _ => exec_of_short (show s.n < s.pc + 3 by omega), rfl,
    fun _ => line_of_two_operands nofun rfl, rfl⟩

/-- Settles O8: four bytes in format RIR (R111). -/
theorem loadAddrDecodesToItsRecord : Obligations.LoadAddrDecodesToItsRecord :=
  fun r imm base s => ⟨rfl, fun rest => decodeOfEncodeIsTheInstruction (.loadAddr r imm base) rest rfl,
    fun fits => exec_of_fits fits, fun _ => exec_of_short (show s.n < s.pc + 4 by omega), rfl,
    fun _ => line_of_three_operands nofun rfl, rfl⟩

/-- Settles O9: four bytes in format IRR, the immediate first (R112). -/
theorem storeAddrDecodesToItsRecord : Obligations.StoreAddrDecodesToItsRecord :=
  fun off base src s => ⟨rfl, fun rest => decodeOfEncodeIsTheInstruction (.storeAddr off base src) rest rfl,
    fun fits => exec_of_fits fits, fun _ => exec_of_short (show s.n < s.pc + 4 by omega), rfl,
    fun _ => line_of_three_operands nofun rfl, rfl⟩

/-- Settles O17: three bytes in format RR (R113). -/
theorem loadIndDecodesToItsRecord : Obligations.LoadIndDecodesToItsRecord :=
  fun rd rs s => ⟨rfl, fun rest => decodeOfEncodeIsTheInstruction (.loadInd rd rs) rest rfl,
    fun fits => exec_of_fits fits, fun _ => exec_of_short (show s.n < s.pc + 3 by omega), rfl,
    fun _ => line_of_two_operands nofun rfl, rfl⟩

end Sys2Proof.Machine
end

section
/-!
SUPPORT. The arithmetic, logic and compare opcodes (42_alu.md R120 to R124): encoding, record, advance, truncation and rendering.
-/

namespace Sys2Proof.Machine

/-- The line of a defined instruction with one operand. -/
theorem line_of_one_operand {d : DecodedInstr} (defined : d.cls ≠ .unknown) (len : d.len = 2) :
    line d = hex2 d.addr ++ (": " ++ mnemonic d.cls ++ " " ++ sigil d.k1) ++ dec d.f1 := by
  have operands : renderedOperands d = [renderOperand d.k1 d.f1] := by
    rw [renderedOperands, len]; rfl
  simp only [line, text_of_defined defined, operands, joinOperands, renderOperand_eq_sigil, String.append_assoc]

/-- Settles O10: four bytes in format RRR, the destination last (R120). -/
theorem addDecodesToItsRecord : Obligations.AddDecodesToItsRecord :=
  fun r1 r2 rd s => ⟨rfl, fun rest => decodeOfEncodeIsTheInstruction (.add r1 r2 rd) rest rfl,
    fun fits => exec_of_fits fits, fun _ => exec_of_short (show s.n < s.pc + 4 by omega), rfl,
    fun _ => line_of_three_operands nofun rfl, rfl⟩

/-- Settles O11: four bytes in format RIR, whatever the immediate (R121). -/
theorem modDecodesToItsRecord : Obligations.ModDecodesToItsRecord :=
  fun r imm rd s => ⟨rfl, fun rest => decodeOfEncodeIsTheInstruction (.mod r imm rd) rest rfl,
    fun fits => exec_of_fits fits, fun _ => exec_of_short (show s.n < s.pc + 4 by omega), rfl,
    fun _ => line_of_three_operands nofun rfl, rfl⟩

/-- Settles O12: four bytes in format RRR (R122). -/
theorem xorDecodesToItsRecord : Obligations.XorDecodesToItsRecord :=
  fun r1 r2 rd s => ⟨rfl, fun rest => decodeOfEncodeIsTheInstruction (.xor r1 r2 rd) rest rfl,
    fun fits => exec_of_fits fits, fun _ => exec_of_short (show s.n < s.pc + 4 by omega), rfl,
    fun _ => line_of_three_operands nofun rfl, rfl⟩

/-- Settles O13: two bytes in format R (R123). -/
theorem incDecodesToItsRecord : Obligations.IncDecodesToItsRecord :=
  fun r s => ⟨rfl, fun rest => decodeOfEncodeIsTheInstruction (.inc r) rest rfl,
    fun fits => exec_of_fits fits, fun _ => exec_of_short (show s.n < s.pc + 2 by omega), rfl,
    fun _ => line_of_one_operand nofun rfl, rfl⟩

/-- Settles O14: three bytes in format RI, with no flag written (R124). -/
theorem cmpDecodesToItsRecord : Obligations.CmpDecodesToItsRecord :=
  fun r imm s => ⟨rfl, fun rest => decodeOfEncodeIsTheInstruction (.cmp r imm) rest rfl,
    fun fits => exec_of_fits fits, fun _ => exec_of_short (show s.n < s.pc + 3 by omega), rfl,
    fun _ => line_of_two_operands nofun rfl, rfl⟩

end Sys2Proof.Machine
end

section
/-!
SUPPORT. The jump opcodes (43_jump.md R130, R131): encoding, record, advance, truncation and rendering.
-/

namespace Sys2Proof.Machine

/-- Settles O15: two bytes in format I; the advance is 2 whatever the target (R130). -/
theorem jmpDecodesToItsRecord : Obligations.JmpDecodesToItsRecord :=
  fun imm s => ⟨rfl, fun rest => decodeOfEncodeIsTheInstruction (.jmp imm) rest rfl,
    fun fits => exec_of_fits fits, fun _ => exec_of_short (show s.n < s.pc + 2 by omega), rfl,
    fun _ => line_of_one_operand nofun rfl, rfl⟩

/-- Settles O16: two bytes in format I, with no condition read (R131). -/
theorem jnzDecodesToItsRecord : Obligations.JnzDecodesToItsRecord :=
  fun imm s => ⟨rfl, fun rest => decodeOfEncodeIsTheInstruction (.jnz imm) rest rfl,
    fun fits => exec_of_fits fits, fun _ => exec_of_short (show s.n < s.pc + 2 by omega), rfl,
    fun _ => line_of_one_operand nofun rfl, rfl⟩

end Sys2Proof.Machine
end

section
/-!
SUPPORT. The UNKNOWN case (44_unknown.md R140, R141): encoding, record, advance and rendering, and that the pass goes on after it.
-/

namespace Sys2Proof.Machine

theorem definedOpcode_ofNat_of_ge {b : Nat} (above : 0x0C ≤ b) (byte : b < 256) :
    definedOpcode (BitVec.ofNat 8 b) = false := by
  have value : (BitVec.ofNat 8 b).toNat = b := Nat.mod_eq_of_lt byte
  simp only [definedOpcode, value, Bool.and_eq_false_iff, decide_eq_false_iff_not]
  omega

/-- Of the twelve lowest bytes only 0x00 is undefined; the 244 from 0x0C on all are (R140). -/
theorem count_undefined_bytes :
    ((List.range 256).filter fun b => !definedOpcode (BitVec.ofNat 8 b)).length = 245 := by
  have allAbove : ((List.range 244).map (12 + ·)).filter (fun b => !definedOpcode (BitVec.ofNat 8 b)) =
      (List.range 244).map (12 + ·) := by
    simp only [List.filter_eq_self, List.forall_mem_map, List.mem_range, Bool.not_eq_true']
    exact fun k small => definedOpcode_ofNat_of_ge (by omega) (by omega)
  rw [show 256 = 12 + 244 from rfl, List.range_add, List.filter_append, List.length_append, allAbove, List.length_map,
    List.length_range]
  rfl

/-- An UNKNOWN record's line shows its address and the byte itself (R102). -/
theorem line_of_unknown {d : DecodedInstr} (unknown : d.cls = .unknown) : line d = hex2 d.addr ++ ": DB " ++ dec d.op := by
  rw [line, text_of_unknown unknown, show ": DB " = ": " ++ "DB " from rfl]
  simp only [String.append_assoc]

theorem decode_unknown {op : Byte} (undefined : definedOpcode op = false) (rest : List Byte) :
    decode (op :: rest) = .ok (.unknown op, rest) :=
  decodeOfEncodeIsTheInstruction (.unknown op) rest (by rw [Instr.wf, undefined]; rfl)

/-- With a byte left at `pc`, UNKNOWN's record is emitted; it is never truncated (R140). -/
theorem exec_unknown {s : State} (op : Byte) (before : s.pc < s.n) :
    exec (.unknown op) s = .next (s.retire (recordO .unknown op s.pc)) :=
  exec_of_fits (i := .unknown op) before

/-- Settles O18: one byte in format O (R140). -/
theorem unknownDecodesToItsRecord : Obligations.UnknownDecodesToItsRecord :=
  ⟨count_undefined_bytes,
    fun op _ undefined => ⟨rfl, decode_unknown undefined, exec_unknown op, rfl, fun _ => line_of_unknown rfl⟩,
    rfl, rfl, rfl, rfl, rfl, rfl⟩

/-- A running step at an UNKNOWN byte executes UNKNOWN, whatever follows the byte. -/
theorem step_of_unknown {s : State} {op : Byte} (running : Running s) (before : s.pc < s.n)
    (byteAt : Memory.lookup s.prog s.pc = some op) (undefined : definedOpcode op = false) :
    step s = .next (s.retire (recordO .unknown op s.pc)) := by
  obtain ⟨run, noTurns⟩ := running
  obtain ⟨_, runs, _⟩ :=
    stepRunsTheDecodedInstruction s [op] [] (.unknown op) run ⟨byteAt, trivial⟩ before (decode_unknown undefined [])
  rw [runs noTurns, exec_unknown op before]

/-- A move of the block out of RUN is the stop test's or the fault entry's (R91, R93). -/
theorem BlockMove.leaves_run {s t : State} (move : BlockMove s t) (run : s.st = .run) (left : t.st ≠ .run) :
    s.n ≤ s.pc ∨ ∃ op, Memory.lookup s.prog s.pc = some op ∧ s.n < s.pc + (rom op).len.toNat := by
  cases move with
  | hold => exact absurd run left
  | stop _ atEnd => exact .inl atEnd
  | truncate op _ _ byteAt short => exact .inr ⟨op, byteAt, short⟩
  | emit => exact absurd run left

/-- Settles O30: at an UNKNOWN byte a step emits, and only the stop test and the fault entry leave RUN (R141). -/
theorem unknownBytesDoNotStopThePass : Obligations.UnknownBytesDoNotStopThePass :=
  ⟨fun _ _ running before byteAt undefined =>
      ⟨_, _, step_of_unknown running before byteAt undefined, running.1, rfl, rfl⟩,
    rfl, fun _ _ ⟨run, noTurns⟩ h left => (blockMove_of_step noTurns h).leaves_run run left⟩

end Sys2Proof.Machine
end

section
/-!
SUPPORT. The block's one exception (60_exceptions.md R150 to R152): when a running step takes it, what it writes, and that a running
step over a placed program ends in no other way than the stop test, this exception or an emitted record.
-/

namespace Sys2Proof.Machine

/-- A truncated instruction is taken as its opcode byte is read; no operand byte is looked at (R150, R154). -/
theorem unitStep_of_truncated {s : State} {op : Byte} (before : s.pc < s.n) (byteAt : Memory.lookup s.prog s.pc = some op)
    (short : s.n < s.pc + (rom op).len.toNat) : unitStep .fault s = .next (s.takeTruncated op (rom op).len) := by
  have answer : decodeUnit .fault s = .ok (.fault { fPc := s.pc, fOp := op, fLen := (rom op).len, fAvail := s.n - s.pc }) := by
    simp [decodeUnit, Nat.not_le.mpr before, State.memRead_of_lookup before byteAt, (s.isTruncated_iff _).mpr short, bind,
      Except.bind, pure, Except.pure]
  rw [unitStep, answer]; rfl

/-- Only a defined opcode has an operand byte that could be missing (R62, R150). -/
theorem definedOpcode_of_one_lt_len {op : Byte} (long : 1 < (rom op).len.toNat) : definedOpcode op = true := by
  cases defined : definedOpcode op with
  | true => rfl
  | false =>
    rw [rom_unknown defined] at long
    exact absurd long (by decide)

/-- In RUN the fault entry is the move at an instruction that runs past the end, and no other (R151). -/
theorem BlockMove.enters_fault_iff {s t : State} (move : BlockMove s t) (run : s.st = .run) :
    t.st = .fault ↔ s.pc < s.n ∧ ∃ op, Memory.lookup s.prog s.pc = some op ∧ s.n < s.pc + (rom op).len.toNat := by
  cases move with
  | hold notRun => exact absurd run notRun
  | stop _ atEnd => exact ⟨nofun, fun ⟨before, _⟩ => absurd before (Nat.not_lt.mpr atEnd)⟩
  | truncate op _ before byteAt short => exact ⟨fun _ => ⟨before, op, byteAt, short⟩, fun _ => rfl⟩
  | emit op _ _ _ _ fits shows =>
    obtain ⟨byteAt, _⟩ := shows
    refine ⟨fun entered => absurd (run.symm.trans entered) nofun, fun ⟨_, op', byteAt', short⟩ => ?_⟩
    obtain rfl : op = op' := Option.some.inj (byteAt.symm.trans byteAt')
    exact absurd short (Nat.not_lt.mpr fits)

/-- In RUN the pass ends normally at or past the end, and nowhere else (R91). -/
theorem BlockMove.enters_done_iff {s t : State} (move : BlockMove s t) (run : s.st = .run) :
    t.st = .done ↔ s.n ≤ s.pc := by
  cases move with
  | hold notRun => exact absurd run notRun
  | stop _ atEnd => exact ⟨fun _ => atEnd, fun _ => rfl⟩
  | truncate _ _ before => exact ⟨nofun, fun atEnd => absurd before (Nat.not_lt.mpr atEnd)⟩
  | emit op _ _ _ _ fits =>
    have len := rom_len_pos op
    exact ⟨fun entered => absurd (run.symm.trans entered) nofun, fun atEnd => by omega⟩

/-- Settles O29: a placed program leaves a running step only the block's moves, of which each end of a pass has its one cause. -/
theorem onlyTruncationIsAnException : Obligations.OnlyTruncationIsAnException := by
  intro s running programmed
  obtain ⟨t, answer, move⟩ := exists_step_of_programmed running programmed
  exact ⟨t, answer, move.enters_fault_iff running.1, move.enters_done_iff running.1⟩

/-- Settles O25: R96's function takes the exception, and a step that took it had between 1 and length minus 1 bytes left. -/
theorem truncatedInstructionIsTaken : Obligations.TruncatedInstructionIsTaken := by
  refine ⟨fun s op running before byteAt short =>
    (step_eq_unitStep running).trans (unitStep_of_truncated before byteAt short), ?_, rfl, rfl⟩
  intro s t ⟨run, noTurns⟩ answer entered
  obtain ⟨before, op, byteAt, short⟩ := ((blockMove_of_step noTurns answer).enters_fault_iff run).mp entered
  exact ⟨op, definedOpcode_of_one_lt_len (by omega), byteAt, by omega, by omega⟩

end Sys2Proof.Machine
end

section
/-!
SUPPORT. The host's reset and start, and that a record tells of no other bytes than its own (70_reset_and_hazards.md R170, R171, R173,
R177).
-/

namespace Sys2Proof.Machine

/-! ### A record and its own bytes -/

/-- A slot is read from the instruction's own bytes alone (R94). -/
theorem SlotHolds.congr {m m' : Memory} {a : Nat} {len : BitVec 3} {k : Nat} {f : Byte} (h : SlotHolds m a len k f)
    (own : ∀ c, a ≤ c → c < a + len.toNat → Memory.lookup m' c = Memory.lookup m c) : SlotHolds m' a len k f := by
  unfold SlotHolds at h ⊢
  by_cases has : k < len.toNat
  · rw [if_pos has] at h ⊢
    exact (own (a + k) (Nat.le_add_right a k) (Nat.add_lt_add_left has a)).trans h
  · rw [if_neg has] at h ⊢
    exact h

/-- Where a whole instruction stands at `pc`, the one move of the block in RUN is to emit its record (R95). -/
theorem BlockMove.emits_of_fits {s t : State} {op : Byte} (move : BlockMove s t) (run : s.st = .run)
    (byteAt : Memory.lookup s.prog s.pc = some op) (fits : s.pc + (rom op).len.toNat ≤ s.n) :
    ∃ f1 f2 f3, RecordShows s.prog (romRecord s.pc op f1 f2 f3) ∧ t = s.retire (romRecord s.pc op f1 f2 f3) := by
  cases move with
  | hold notRun => exact absurd run notRun
  | stop _ atEnd =>
    have len := rom_len_pos op
    omega
  | truncate op' _ _ byteAt' short =>
    obtain rfl : op = op' := Option.some.inj (byteAt.symm.trans byteAt')
    exact absurd short (Nat.not_lt.mpr fits)
  | emit op' f1 f2 f3 _ _ shows =>
    obtain ⟨byteAt', slots⟩ := shows
    obtain rfl : op = op' := Option.some.inj (byteAt.symm.trans byteAt')
    exact ⟨f1, f2, f3, ⟨byteAt', slots⟩, rfl⟩

/-- Settles O34: the first step emits the record its slots show, and the second state's slots hold the same bytes. -/
theorem recordDependsOnlyOnItsOwnBytes : Obligations.RecordDependsOnlyOnItsOwnBytes := by
  intro s s' t op running running' pc byteAt fits fits' own h
  obtain ⟨f1, f2, f3, ⟨_, h1, h2, h3⟩, rfl⟩ :=
    (blockMove_of_step running.2 h).emits_of_fits running.1 byteAt fits
  have byteAt' : Memory.lookup s'.prog s.pc = some op :=
    (own s.pc (Nat.le_refl _) (Nat.lt_add_of_pos_right (rom_len_pos op))).trans byteAt
  have next' : step s' = .next (s'.retire (romRecord s.pc op f1 f2 f3)) := by
    rw [step_eq_unitStep running', ← pc]
    rw [← pc] at fits' byteAt' own h1 h2 h3
    exact unitStep_of_slots fits' byteAt' (h1.congr own) (h2.congr own) (h3.congr own)
  exact ⟨_, _, next', rfl, rfl, congrArg (· + (rom op).len.toNat) pc⟩

/-! ### Reset and start -/

/-- Settles O36, field by field. -/
theorem resetSetsEveryRegister : Obligations.ResetSetsEveryRegister :=
  ⟨fun s => ⟨s.hostReset_st, s.hostReset_pc, s.hostReset_n, s.hostReset_fault, s.hostReset_out⟩,
    State.reset_st, State.reset_pc, State.reset_n, State.reset_fault, State.reset_out⟩

/-- Within its bounds a start is a new pass, whatever the state (R171, R173). -/
theorem hostStart_of_bounds {nIn p : Nat} (size : nIn ≤ Config.nMax) (address : p < 2 ^ Config.pcW) (s : State) :
    hostStart nIn p s = .next (s.startPass nIn p) :=
  if_pos ⟨size, address⟩

/-- Settles O37: the start is `startPass`, which writes these five fields. -/
theorem startBeginsAPass : Obligations.StartBeginsAPass :=
  fun s _ _ size address => hostStart_of_bounds size address s

/-- Out of its bounds, and only there, a start is refused (R173). -/
theorem hostStart_refused_iff (nIn p : Nat) (s : State) :
    hostStart nIn p s = .refused (.startOutOfBounds nIn p) ↔ 2 ^ Config.pcW ≤ p ∨ Config.nMax < nIn := by
  rcases hostStart_cases nIn p s with ⟨⟨size, address⟩, taken⟩ | ⟨outside, refused⟩
  · rw [taken]
    exact ⟨nofun, fun outside => by omega⟩
  · exact ⟨fun _ => by omega, fun _ => refused⟩

/-- Settles O38: the bounds decide a start, and the stop test ends the pass it begins at or past the end. -/
theorem startOutOfBoundsIsRefused : Obligations.StartOutOfBoundsIsRefused := by
  refine ⟨fun s nIn p => hostStart_refused_iff nIn p s, fun s nIn p noTurns size address atEnd => ?_⟩
  obtain ⟨_, startEndsAtOnce⟩ := stopTestEndsThePass
  obtain ⟨u, last, done, empty, _⟩ := startEndsAtOnce s nIn p noTurns atEnd
  exact ⟨_, u, hostStart_of_bounds size address s, last, done, empty⟩

end Sys2Proof.Machine
end

section
/-!
SUPPORT. How a step takes the host's turns, and what they can change of a block that is not in RUN (10_state.md R23,
70_reset_and_hazards.md R170 to R176).
-/

namespace Sys2Proof.Machine

/-! ### A turn is a step of its own (log 3) -/

theorem step_of_block {s : State} {ts : List HostTurn} (turn : s.turns = .block :: ts) :
    step s = blockStep { s with turns := ts } := by
  rw [step, turn]

theorem step_of_reset {s : State} {ts : List HostTurn} (turn : s.turns = .reset :: ts) :
    step s = .next ({ s with turns := ts } : State).hostReset := by
  rw [step, turn]

theorem step_of_start {s : State} {nIn p : Nat} {ts : List HostTurn} (turn : s.turns = .start nIn p :: ts) :
    step s = hostStart nIn p { s with turns := ts } := by
  rw [step, turn]

theorem step_of_place {s : State} {bytes : List Byte} {ts : List HostTurn} (turn : s.turns = .place bytes :: ts) :
    step s = hostPlace bytes { s with turns := ts } := by
  rw [step, turn]

/-- Settles O39, turn by turn; a reset keeps the buffer and the later turns (log 12). -/
theorem hostTurnsActBetweenSteps : Obligations.HostTurnsActBetweenSteps := fun _ _ =>
  ⟨step_of_no_turns, step_of_block, fun turn => ⟨_, step_of_reset turn, rfl, rfl, rfl, rfl, rfl, rfl, rfl⟩,
    fun _ _ => step_of_start, fun _ => step_of_place⟩

/-! ### Placing a program -/

/-- A buffer made of bytes from offset `a` on reads each byte at its place, and nothing past the last one. -/
theorem Memory.lookup_ofBytes (a : Nat) (bs : List Byte) (k : Nat) : Memory.lookup (Memory.ofBytes a bs) (a + k) = bs[k]? := by
  induction bs generalizing a k with
  | nil => rfl
  | cons b bs ih =>
    cases k with
    | zero => exact if_pos rfl
    | succ k =>
      rw [Memory.ofBytes, Memory.lookup, if_neg (by omega), show a + (k + 1) = a + 1 + k by omega, ih, List.getElem?_cons_succ]

/-- Settles O35: outside RUN the buffer becomes `Memory.ofBytes 0`, which is canonical and reads the bytes (R174). -/
theorem placedProgramIsRead : Obligations.PlacedProgramIsRead := by
  intro s bytes ts turn
  rw [step_of_place turn]
  rcases hostPlace_cases bytes { s with turns := ts } with ⟨run, refused⟩ | ⟨notRun, placed⟩
  · exact ⟨fun notRun => absurd run notRun, fun _ => refused⟩
  · refine ⟨fun _ => ⟨_, placed, Memory.ofBytes_wf 0 bytes, fun a => ?_⟩, fun run => absurd run notRun⟩
    rw [← Memory.lookup_ofBytes 0 bytes a, Nat.zero_add]

/-! ### Outside RUN -/

/-- Settles O27: the three pass states other than RUN hold the state (log 4), and so does reset, which is IDLE. -/
theorem outsideRunTheStateIsHeld : Obligations.OutsideRunTheStateIsHeld := by
  refine ⟨fun s st noTurns => step_outside_run noTurns ?_, step_outside_run State.reset_turns nofun⟩
  rcases st with st | st | st <;> rw [st] <;> nofun

/-- Outside RUN the block's one move is to hold the state (R90). -/
theorem BlockMove.eq_of_not_run {s t : State} (move : BlockMove s t) (notRun : s.st ≠ .run) : t = s := by
  cases move with
  | hold => rfl
  | stop run => exact absurd run notRun
  | truncate _ run => exact absurd run notRun
  | emit _ _ _ _ run => exact absurd run notRun

/-- Outside RUN a step that takes neither a reset nor a start changes at most the buffer and the waiting turns (R23, R156). -/
theorem step_next_outside_run {s t : State} (notRun : s.st ≠ .run) (h : step s = .next t) :
    (∃ ts, s.turns = .reset :: ts) ∨ (∃ nIn p ts, s.turns = .start nIn p :: ts) ∨
    ∃ m ts, t = { s with prog := m, turns := ts } := by
  rcases step_next_cases h with ⟨ts, _, own⟩ | ⟨ts, turn, _⟩ | ⟨nIn, p, ts, turn, _⟩ | ⟨bytes, ts, _, _, placed⟩
  · exact .inr (.inr ⟨s.prog, ts, (blockMove_of_next own).eq_of_not_run notRun⟩)
  · exact .inl ⟨ts, turn⟩
  · exact .inr (.inl ⟨nIn, p, ts, turn⟩)
  · exact .inr (.inr ⟨_, ts, placed⟩)

theorem Ended.not_run {s : State} (ended : Ended s) : s.st ≠ .run := by
  rcases ended with st | st <;> rw [st] <;> nofun

/-- Settles O40: any other step from DONE or FAULT keeps all five registers. -/
theorem onlyStartOrResetLeavesAnEndedPass : Obligations.OnlyStartOrResetLeavesAnEndedPass := by
  refine ⟨fun s t ended h changed => ?_, rfl, rfl, rfl, rfl⟩
  rcases step_next_outside_run ended.not_run h with reset | start | ⟨m, ts, rfl⟩
  · exact .inl reset
  · exact .inr start
  · simp at changed

end Sys2Proof.Machine
end

section
/-!
SUPPORT. The status port tells states apart by what it shows (10_state.md R23, R24, R30, R32).
-/

namespace Sys2Proof.Machine

theorem PassState.code_injective : Function.Injective PassState.code := by
  intro a b
  cases a <;> cases b <;> decide

theorem FaultRecord.eq_of_fields {f g : FaultRecord} (fPc : f.fPc = g.fPc) (fOp : f.fOp = g.fOp) (fLen : f.fLen = g.fLen)
    (fAvail : f.fAvail = g.fAvail) : f = g := by
  cases f
  cases g
  exact FaultRecord.mk.injEq .. |>.mpr ⟨fPc, fOp, fLen, fAvail⟩

theorem State.status_eq_iff (s s' : State) :
    s.status = s'.status ↔ s.st = s'.st ∧ s.pc = s'.pc ∧ s.fault = s'.fault ∧ s.n = s'.n := by
  refine ⟨fun same => ?_, fun ⟨st, pc, fault, n⟩ => by rw [State.status, State.status, st, pc, fault, n]⟩
  obtain ⟨st, pc, fPc, fOp, fLen, fAvail, n⟩ := StatusPort.mk.injEq .. |>.mp same
  exact ⟨PassState.code_injective st, pc, FaultRecord.eq_of_fields fPc fOp fLen fAvail, n⟩

/-- Settles O42: the port's items are the state's own, and the code of `st` loses nothing. -/
theorem statusPortTellsStatePcAndFault : Obligations.StatusPortTellsStatePcAndFault :=
  ⟨fun _ => ⟨rfl, rfl, rfl, rfl, rfl, rfl, rfl⟩, rfl, rfl, rfl, rfl, State.status_eq_iff⟩

end Sys2Proof.Machine
end

section
/-!
SUPPORT. A table word placed at `pc` (log 9): the buffer holds its bytes there, and the next step is the block's.
-/

namespace Sys2Proof.Machine

/-- Written bytes stand in the buffer from the offset they were written at. -/
theorem bytesAt_writeBytes (m : Memory) (a : Nat) (bs : List Byte) : BytesAt (Memory.writeBytes m a bs) a bs := by
  induction bs generalizing m a with
  | nil => trivial
  | cons b bs ih =>
    have first : Memory.lookup (Memory.writeBytes m a (b :: bs)) a = some b := by
      rw [Memory.writeBytes, Memory.lookup_writeBytes_below _ bs (Nat.lt_succ_self a), Memory.lookup_write, if_pos rfl]
    exact ⟨first, ih (Memory.write m a b) (a + 1)⟩

theorem length_wordBytes (nbits w : Nat) : (wordBytes nbits w).length = 1 + Config.opsMax := by
  rw [wordBytes, List.length_map, List.length_range]

theorem decode_of_decodeTableWord {nbits w : Nat} {i : Instr} (h : decodeTableWord nbits w = some i) :
    ∃ rest, decode (wordBytes nbits w) = .ok (i, rest) := by
  unfold decodeTableWord at h
  split at h
  case h_1 i' rest decoded =>
    cases h
    exact ⟨rest, decoded⟩
  case h_2 => cases h

/-- The step after a word is placed is the block's own; turns that were waiting still wait. -/
theorem step_withFetchWord (s : State) (nbits w : Nat) :
    step (s.withFetchWord nbits w) = blockStep { s.withFetchWord nbits w with turns := s.turns } := by
  obtain ⟨st, pc, n, fault, out, prog, turns⟩ := s
  cases turns with
  | nil => exact step_of_no_turns rfl
  | cons turn ts => exact step_of_block rfl

/-- Settles O22: the word's bytes stand at `pc` below N, so the block's step in RUN executes what they decode to. -/
theorem fetchWordRunsItsInstruction : Obligations.FetchWordRunsItsInstruction := by
  intro s nbits w i h
  obtain ⟨rest, decoded⟩ := decode_of_decodeTableWord h
  have inside : s.pc + (wordBytes nbits w).length ≤ max s.n (s.pc + 1 + Config.opsMax) := by
    rw [length_wordBytes, ← Nat.add_assoc]
    exact Nat.le_max_right ..
  rw [step_withFetchWord]
  exact blockStep_of_decode (s := { s.withFetchWord nbits w with turns := s.turns }) rfl
    (bytesAt_writeBytes s.prog s.pc (wordBytes nbits w)) inside decoded

end Sys2Proof.Machine
end
